-- ==== Sys2Proof/Word.lean ====
section
/-! DEFINITION. The machine's words: the 8-bit byte of memory cells, registers and operands, and the 9-bit program counter. -/

namespace Sys2Proof

/-- A byte: a memory cell, a general register, the stack pointer, an operand byte or an output value (R5, R7, R15, R32). -/
abbrev Byte := BitVec 8

/-- The program counter's word: 9 bits, so that 256 (one past the last cell) can be held (R20, R22). -/
abbrev PcWord := BitVec 9

end Sys2Proof
end

