-- ==== Sys2Proof/Config.lean ====
section
/-! DEFINITION. The fixed parameters of the hardware and the type of its one open encoding parameter, the nine opcode bytes. No free value is needed: no step of this hardware has an undefined result (93_implementation_defined.md section 2). -/

namespace Sys2Proof

namespace Config

/-- `MEM_CELLS` (R5). -/
abbrev memCells : Nat := 256

/-- `NREGS` (R5). -/
abbrev nRegs : Nat := 8

/-- `PC_RESET` (R5, R23). -/
abbrev pcReset : PcWord := 0#9

/-- `SP_RESET` (R5, R27). -/
abbrev spReset : Byte := 255#8

/-- `LOAD_BASE`: where `load` puts byte 0 of the program (R5, R49). -/
abbrev loadBase : Nat := 0

/-- The longest instruction, in bytes (R5, R53). -/
abbrev maxLength : Nat := 3

end Config

/-- The nine entries of the Dispatch Table, by name (R1, R58). -/
inductive Opcode where
  | ldi | prn | add | mul | push | pop | call | ret | hlt
  deriving DecidableEq, Repr

/-- The parameters `OPC_LDI` .. `OPC_HLT`: the source gives no opcode value, so the nine bytes are an argument of the decoder (R6, R58, R59).
Their default values are `defaultOpcodes` of Decode.lean (log 1). -/
structure OpcodeMap where
  ldi : Byte
  prn : Byte
  add : Byte
  mul : Byte
  push : Byte
  pop : Byte
  call : Byte
  ret : Byte
  hlt : Byte
  deriving DecidableEq, Repr

/-- The opcode byte of a dispatch-table entry. -/
def OpcodeMap.byte (m : OpcodeMap) : Opcode → Byte
  | .ldi => m.ldi
  | .prn => m.prn
  | .add => m.add
  | .mul => m.mul
  | .push => m.push
  | .pop => m.pop
  | .call => m.call
  | .ret => m.ret
  | .hlt => m.hlt

/-- The legal opcode bytes under a map, in the table's order (R60). -/
def OpcodeMap.toList (m : OpcodeMap) : List Byte :=
  [m.ldi, m.prn, m.add, m.mul, m.push, m.pop, m.call, m.ret, m.hlt]

/-- "they are pairwise distinct" (R59): the one constraint on the opcode bytes that the semantics depends on. -/
abbrev OpcodeMap.Distinct (m : OpcodeMap) : Prop := m.toList.Nodup

end Sys2Proof
end

