-- ==== Sys2Proof/Syntax.lean ====
section
/-! DEFINITION. The instruction set: one constructor for each of the nine rows of spec/opcode_table.json. -/

namespace Sys2Proof

/-- An instruction with its operand bytes as they stand in memory.
A register operand is a whole byte: 8 or more is not masked and not a decode error, it faults at execution (R56, R62). -/
inductive Instr where
  /-- `LDI Ra, imm` (R78). -/
  | ldi (a imm : Byte)
  /-- `PRN Ra` (R79). -/
  | prn (a : Byte)
  /-- `ADD Ra, Rb` (R83). -/
  | add (a b : Byte)
  /-- `MUL Ra, Rb` (R84). -/
  | mul (a b : Byte)
  /-- `PUSH Ra` (R87). -/
  | push (a : Byte)
  /-- `POP Ra` (R88). -/
  | pop (a : Byte)
  /-- `CALL Ra` (R91). -/
  | call (a : Byte)
  /-- `RET` (R92). -/
  | ret
  /-- `HLT` (R96). -/
  | hlt
  deriving DecidableEq, Repr

/-- The dispatch-table entry of an instruction. -/
def Instr.opcode : Instr → Opcode
  | .ldi _ _ => .ldi
  | .prn _ => .prn
  | .add _ _ => .add
  | .mul _ _ => .mul
  | .push _ => .push
  | .pop _ => .pop
  | .call _ => .call
  | .ret => .ret
  | .hlt => .hlt

/-- The operand bytes, in the order of their addresses `pc+1`, `pc+2` (R38, R54). -/
def Instr.operands : Instr → List Byte
  | .ldi a imm => [a, imm]
  | .prn a => [a]
  | .add a b => [a, b]
  | .mul a b => [a, b]
  | .push a => [a]
  | .pop a => [a]
  | .call a => [a]
  | .ret => []
  | .hlt => []

/-- The operand bytes that are register indices; LDI's second operand is an immediate and is not among them (R54, R56). -/
def Instr.registerOperands : Instr → List Byte
  | .ldi a _ => [a]
  | .prn a => [a]
  | .add a b => [a, b]
  | .mul a b => [a, b]
  | .push a => [a]
  | .pop a => [a]
  | .call a => [a]
  | .ret => []
  | .hlt => []

end Sys2Proof
end

