-- ==== Sys2Proof/WellFormed.lean ====
section
/-! DEFINITION. Well-formed instructions: every register operand is a legal register index, 0..7. -/

namespace Sys2Proof

/-- A register operand is valid only when it is 0..7 (R56). -/
def registerIndexLegal (a : Byte) : Bool := decide (a.toNat < Config.nRegs)

/-- Every register operand legal; every immediate is (R54, R56). An ill-formed instruction still decodes and then raises `InvalidRegister` (R62). -/
def Instr.wellFormed (i : Instr) : Bool := i.registerOperands.all registerIndexLegal

end Sys2Proof
end

