-- ==== Sys2Proof/Decode.lean ====
section
/-! DEFINITION. The decoder (the Dispatch Table and the operand layout) and the encoder, both over the opcode bytes as a parameter; the default opcode bytes; and the host's table-word reader. -/

namespace Sys2Proof

/-- The default assignment of R58, PRESUMED there: from general knowledge, the LS-8 teaching machine's bytes (G1, D1, log 1). -/
def defaultOpcodes : OpcodeMap where
  ldi := 0x82#8
  prn := 0x47#8
  add := 0xA0#8
  mul := 0xA2#8
  push := 0x45#8
  pop := 0x46#8
  call := 0x50#8
  ret := 0x11#8
  hlt := 0x01#8

/-- The number of operand bytes: format F2, F1 or F0 (R54). -/
def operandCount : Opcode → Nat
  | .ldi => 2
  | .prn => 1
  | .add => 2
  | .mul => 2
  | .push => 1
  | .pop => 1
  | .call => 1
  | .ret => 0
  | .hlt => 0

/-- "ADD, MUL (ALU ops)": whether the instruction is an ALU operation (R58, R59). -/
def isAluOpcode : Opcode → Bool
  | .add => true
  | .mul => true
  | .ldi => false
  | .prn => false
  | .push => false
  | .pop => false
  | .call => false
  | .ret => false
  | .hlt => false

/-- `len(op) = 1 + (number of operand bytes)` (R54). -/
def instrLength (i : Instr) : Nat := 1 + operandCount i.opcode

/-- "some fixed set of high bits of each value encodes its operand count and whether it is an ALU operation" (R59): opcode bytes that agree above bit `k` agree in both. -/
def OpcodeMap.classedAbove (m : OpcodeMap) (k : Nat) : Prop :=
  ∀ o o' : Opcode, m.byte o >>> k = m.byte o' >>> k → operandCount o = operandCount o' ∧ isAluOpcode o = isAluOpcode o'

/-- What the source says of the opcode bytes: distinct, and classed by a proper set of high bits (R59). -/
def OpcodeMap.admissible (m : OpcodeMap) : Prop := m.Distinct ∧ ∃ k, 1 ≤ k ∧ k ≤ 7 ∧ m.classedAbove k

/-- Why bytes are no instruction. The engine turns each into a fault (R68, R69, R70). -/
inductive DecodeError where
  /-- No byte at all: the opcode fetch is beyond the end of memory. -/
  | noOpcode
  /-- The opcode byte is not in the Dispatch Table. -/
  | invalidOpcode (op : Byte)
  /-- A legal opcode whose operand bytes are not all there. -/
  | missingOperand (op : Opcode)
  deriving DecidableEq, Repr

/-- The Dispatch Table: "a mapping from opcode value to the instruction behavior", closed, with one default failure path (R60, R69). -/
def lookupOpcode (m : OpcodeMap) (b : Byte) : Option Opcode :=
  if b = m.ldi then some .ldi
  else if b = m.prn then some .prn
  else if b = m.add then some .add
  else if b = m.mul then some .mul
  else if b = m.push then some .push
  else if b = m.pop then some .pop
  else if b = m.call then some .call
  else if b = m.ret then some .ret
  else if b = m.hlt then some .hlt
  else none

/-- Format F1: one operand byte (R54). -/
def oneOperand (op : Opcode) (make : Byte → Instr) : List Byte → Except DecodeError (Instr × List Byte)
  | a :: rest => .ok (make a, rest)
  | [] => .error (.missingOperand op)

/-- Format F2: two operand bytes, the first at the lower address (R38, R54). -/
def twoOperands (op : Opcode) (make : Byte → Byte → Instr) : List Byte → Except DecodeError (Instr × List Byte)
  | a :: b :: rest => .ok (make a b, rest)
  | [_] => .error (.missingOperand op)
  | [] => .error (.missingOperand op)

/-- The operand bytes of a legal opcode (R54, R70). -/
def decodeOperands (op : Opcode) (bytes : List Byte) : Except DecodeError (Instr × List Byte) :=
  match op with
  | .ldi => twoOperands .ldi .ldi bytes
  | .prn => oneOperand .prn .prn bytes
  | .add => twoOperands .add .add bytes
  | .mul => twoOperands .mul .mul bytes
  | .push => oneOperand .push .push bytes
  | .pop => oneOperand .pop .pop bytes
  | .call => oneOperand .call .call bytes
  | .ret => .ok (.ret, bytes)
  | .hlt => .ok (.hlt, bytes)

/-- The decoder over a given opcode map: the instruction at the head of the bytes and the bytes after it.
The opcode is looked up before any operand byte is wanted (R57, R69, R70). -/
def decodeWith (m : OpcodeMap) : List Byte → Except DecodeError (Instr × List Byte)
  | [] => .error .noOpcode
  | op :: rest =>
    match lookupOpcode m op with
    | none => .error (.invalidOpcode op)
    | some o => decodeOperands o rest

/-- The decoder under the default opcode bytes. -/
def decode (bytes : List Byte) : Except DecodeError (Instr × List Byte) := decodeWith defaultOpcodes bytes

/-- The encoder over a given opcode map: the opcode byte, then the operand bytes (R53, R54, R65). -/
def encodeWith (m : OpcodeMap) (i : Instr) : List Byte := m.byte i.opcode :: i.operands

/-- The encoder under the default opcode bytes. -/
def encode (i : Instr) : List Byte := encodeWith defaultOpcodes i

/-- The bytes of a table word: `nbits` bits of `w`, bit 0 the least significant of the first byte, and zeros up to the longest instruction. -/
def tableBytes (nbits w : Nat) : List Byte :=
  let v := w % 2 ^ nbits
  [BitVec.ofNat 8 v, BitVec.ofNat 8 (v / 256), BitVec.ofNat 8 (v / 65536)]

/-- What the decoder reads from an instruction whose bits are `w`, numbered as spec/opcode_table.json numbers them; none where it refuses. -/
def decodeTableWord (nbits w : Nat) : Option Instr :=
  match decode (tableBytes nbits w) with
  | .ok (i, _) => some i
  | .error _ => none

end Sys2Proof
end

