-- ==== Sys2Proof/Machine/State.lean ====
section
/-! DEFINITION. The machine's state, the tuple (mem, x, pc, sp, running, fault, out) of R9, its reset, and the reasons a step or a host operation can stop. -/

namespace Sys2Proof.Machine

/-- The seven faults of the error taxonomy (R98). -/
inductive FaultCode where
  /-- A memory address outside 0..255. -/
  | outOfBounds
  /-- A register index outside 0..7. -/
  | invalidRegister
  /-- A fetched byte not in the dispatch table. -/
  | invalidOpcode
  /-- The ALU is asked for an operation other than ADD or MUL; no program reaches it (R82, R106). -/
  | unsupportedOperation
  /-- The stack pointer would be decremented below 0. -/
  | stackOverflow
  /-- The stack pointer would be incremented above 255. -/
  | stackUnderflow
  /-- `load` was given more than 256 bytes; the result of `load`, never of a step (R107). -/
  | programTooLarge
  deriving DecidableEq, Repr

/-- The engine's status (R30). -/
inductive EngineStatus where
  | running
  | halted
  | faulted (f : FaultCode)
  deriving DecidableEq, Repr

/-- The register file: eight 8-bit general registers, no bank, no alias, none hard-wired (R15). -/
structure RegFile where
  r0 : Byte
  r1 : Byte
  r2 : Byte
  r3 : Byte
  r4 : Byte
  r5 : Byte
  r6 : Byte
  r7 : Byte
  deriving DecidableEq, Repr

/-- Memory: the cells that hold something other than 0, as (address, byte) pairs in rising order of address; every unlisted cell reads 0 (R32, `Memory.wf`). -/
abbrev Memory := List Host.Cell

/-- The machine state (R9). "Nothing else is state." -/
structure State where
  /-- The 256 memory cells (R32). -/
  mem : Memory
  /-- The general registers (R15). -/
  x : RegFile
  /-- The program counter, 9 bits, legal values 0..256 (R20, R22; the spec's own choice D3, log 3). -/
  pc : PcWord
  /-- The stack pointer, 8 bits, always 0..255 (R24; the spec's own choice D4, log 16). -/
  sp : Byte
  /-- The running flag (R28). -/
  running : Bool
  /-- The fault latch (R29; the spec's own representation D6, log 4). -/
  fault : Option FaultCode
  /-- The output stream, oldest value first (R31; the spec's own representation D13, log 12). -/
  out : List Byte
  deriving DecidableEq, Repr

/-- A register file with one value in all eight registers. -/
def RegFile.all (v : Byte) : RegFile := ⟨v, v, v, v, v, v, v, v⟩

/-- Reset, `new()`, for given register reset values `REG_RESET` (R19, R34). -/
def State.resetWith (regReset : RegFile) : State where
  mem := []
  x := regReset
  pc := Config.pcReset
  sp := Config.spReset
  running := true
  fault := none
  out := []

/-- Reset with every general register 0. DESIGN CHOICE, unsafe: the spec leaves `REG_RESET` open (D5, log 2); statements quantify over `State.resetWith`. -/
def State.reset : State := State.resetWith (RegFile.all 0#8)

/-- Why a step does not happen although nothing is refused: the engine is stopped (log 19). The machine's own faults are `FaultCode`s in the latch, not these. -/
inductive Fault where
  /-- Raised by the step of a Halted engine, which has no step (R30, R67). Safe: the hardware takes no step either. -/
  | engineHalted
  /-- Raised by the step of a Faulted engine, which has no step (R30, R67, R105). Safe: the hardware takes no step either. -/
  | engineFaulted (f : FaultCode)
  deriving DecidableEq, Repr

/-- What the model gives no meaning to. -/
inductive Refusal where
  /-- Raised by an arm of `exec` whose instruction has no meaning yet; no arm does. Safe. -/
  | notModelled (mnemonic : String)
  /-- Raised by `hostLoad` once the run has begun: "a `load` during or after a run" (R121). Safe. -/
  | loadAfterRunBegan
  /-- Raised by `hostRun` when a run was begun before: "a second `run()`" (R121). Safe. -/
  | secondRun
  /-- Raised by `hostRun` on a machine whose `load` failed (R121, log 11). Safe. -/
  | runAfterFailedLoad
  /-- Raised by `hostContinue` when no run was begun (R121). Safe. -/
  | noRunToContinue
  deriving DecidableEq, Repr

end Sys2Proof.Machine
end

