-- ==== Sys2Proof/Machine/Ops.lean ====
section
/-! DEFINITION. The named operations over memory, registers, program counter, stack pointer and output, and the taking of a fault. -/

namespace Sys2Proof.Machine

/-- What a cell that nothing has written reads as: memory is zero-initialized (R32, R44). -/
def Memory.unlisted : Byte := 0#8

/-- The canonical form above a lower bound: addresses strictly rising, all below 256, no entry equal to what an unlisted cell reads as. -/
def Memory.wfFrom (low : Nat) : Memory → Bool
  | [] => true
  | (k, v) :: rest =>
    decide (low ≤ k) && decide (k < Config.memCells) && decide (v ≠ Memory.unlisted) && Memory.wfFrom (k + 1) rest

/-- Memory is in canonical form. -/
def Memory.wf (m : Memory) : Bool := Memory.wfFrom 0 m

/-- The content of the cell at an address. -/
def Memory.read : Memory → Nat → Byte
  | [], _ => Memory.unlisted
  | (k, v) :: rest, a => if k = a then v else Memory.read rest a

/-- The cell at an address replaced, keeping the canonical form. -/
def Memory.write : Memory → Nat → Byte → Memory
  | [], a, v => if v = Memory.unlisted then [] else [(a, v)]
  | (k, w) :: rest, a, v =>
    if a < k then (if v = Memory.unlisted then (k, w) :: rest else (a, v) :: (k, w) :: rest)
    else if a = k then (if v = Memory.unlisted then rest else (a, v) :: rest)
    else (k, w) :: Memory.write rest a v

/-- Bytes stored at consecutive ascending addresses (R49). -/
def Memory.store (m : Memory) (base : Nat) : List Byte → Memory
  | [] => m
  | b :: rest => Memory.store (Memory.write m base b) (base + 1) rest

/-- `n` cells read at consecutive ascending addresses. -/
def Memory.readBytes (m : Memory) (a : Nat) : Nat → List Byte
  | 0 => []
  | n + 1 => Memory.read m a :: Memory.readBytes m (a + 1) n

/-- The content of a general register (R17). -/
def RegFile.get (rf : RegFile) (i : Fin 8) : Byte :=
  match i with
  | 0 => rf.r0
  | 1 => rf.r1
  | 2 => rf.r2
  | 3 => rf.r3
  | 4 => rf.r4
  | 5 => rf.r5
  | 6 => rf.r6
  | 7 => rf.r7

/-- A general register replaced (R17). -/
def RegFile.set (rf : RegFile) (i : Fin 8) (v : Byte) : RegFile :=
  match i with
  | 0 => { rf with r0 := v }
  | 1 => { rf with r1 := v }
  | 2 => { rf with r2 := v }
  | 3 => { rf with r3 := v }
  | 4 => { rf with r4 := v }
  | 5 => { rf with r5 := v }
  | 6 => { rf with r6 := v }
  | 7 => { rf with r7 := v }

/-- `x[i]`, for a legal index (R8). -/
def State.reg (s : State) (i : Fin 8) : Byte := s.x.get i

/-- `x[i] <- v`, for a legal index (R8). -/
def State.setReg (s : State) (i : Fin 8) (v : Byte) : State := { s with x := s.x.set i v }

/-- `sp <- t` (R8). -/
def State.setSp (s : State) (t : Byte) : State := { s with sp := t }

/-- `pc <- pc + n`, never reduced for a legal instruction: `pc + n` is at most 256 (R21, R22, log 5). -/
def State.advance (s : State) (n : Nat) : State := { s with pc := BitVec.ofNat 9 (s.pc.toNat + n) }

/-- `pc <- zext_9(v)`: a byte written to the 9-bit program counter (R8, R37). -/
def State.jump (s : State) (v : Byte) : State := { s with pc := v.setWidth 9 }

/-- `out <- out ++ [v]` (R8, R31). -/
def State.emit (s : State) (v : Byte) : State := { s with out := s.out ++ [v] }

/-- `fault <- F` and nothing else (R8, R103). -/
def State.latch (s : State) (f : FaultCode) : State := { s with fault := some f }

/-- `MemRead(a, 1)` (R8, R36). -/
def memRead (a : Nat) (s : State) : Except FaultCode Byte :=
  if a < Config.memCells then .ok (Memory.read s.mem a) else .error .outOfBounds

/-- `MemWrite(a, 1, v)` (R8, R36). -/
def memWrite (a : Nat) (v : Byte) (s : State) : Except FaultCode State :=
  if a < Config.memCells then .ok { s with mem := Memory.write s.mem a v } else .error .outOfBounds

/-- The stack pointer a push leaves, `sp - 1`; below 0 it is `StackOverflow` (R25, R26). -/
def pushedSp (s : State) : Except FaultCode Byte :=
  if s.sp.toNat = 0 then .error .stackOverflow else .ok (s.sp - 1#8)

/-- The stack pointer a pop leaves, `sp + 1`; above 255 it is `StackUnderflow` (R25, R26). -/
def poppedSp (s : State) : Except FaultCode Byte :=
  if s.sp.toNat = 255 then .error .stackUnderflow else .ok (s.sp + 1#8)

/-- The byte CALL pushes, `pc + 2`; a return address that is no memory address is `OutOfBounds` (R91, R95; the spec's own choice D10, log 8). -/
def returnAddress (s : State) : Except FaultCode Byte :=
  if s.pc.toNat + 2 < Config.memCells then .ok (BitVec.ofNat 8 (s.pc.toNat + 2)) else .error .outOfBounds

/-- TAKING A FAULT, the machine's one exception mechanism: the latch is written and control goes nowhere (R8, R103, R104).
No register saves the pc or a status, no mode changes, there is no vector; there is no return from a fault (R100, R105). It is a next state, since the latch is state (log 4). -/
def raise (f : FaultCode) (s : State) : Host.Outcome State Fault Refusal := .next (s.latch f)

/-- An instruction ends: either all its writes happen, or it raises one fault in the state before it (R8, R103). -/
def commit (s : State) (r : Except FaultCode State) : Host.Outcome State Fault Refusal :=
  match r with
  | .ok t => .next t
  | .error f => raise f s

end Sys2Proof.Machine
end

