-- ==== Sys2Proof/Machine/Operands.lean ====
section
/-! DEFINITION. The operand forms: a whole byte as a register index, checked and never masked; and a whole byte as an immediate, which is used as it is and needs no operation (R56). -/

namespace Sys2Proof.Machine

/-- A register operand: 0..7, else `InvalidRegister` (R8, R18, R56). -/
def regOperand (a : Byte) : Except FaultCode (Fin 8) :=
  if h : a.toNat < Config.nRegs then .ok ⟨a.toNat, h⟩ else .error .invalidRegister

end Sys2Proof.Machine
end

