-- ==== Sys2Proof/Machine/Alu.lean ====
section
/-! DEFINITION. The ALU block and its instructions ADD and MUL (42_alu.md). -/

namespace Sys2Proof.Machine

/-- The ALU's operation select: two legal values, and any other one (R81, R82, R106; log 13). -/
inductive AluSelect where
  | add
  | mul
  /-- A select outside the supported set; no instruction drives it. -/
  | other (code : Nat)
  deriving DecidableEq, Repr

/-- The ALU's result for two operand values, modulo 256; none for an unsupported select (R81 to R85). -/
def aluResult (sel : AluSelect) (x y : Byte) : Except FaultCode Byte :=
  match sel with
  | .add => .ok (x + y)
  | .mul => .ok (x * y)
  | .other _ => .error .unsupportedOperation

/-- `apply(op, reg_a, reg_b)`: both operands are read, then register `a` is written once (R81, R86).
An unsupported select is reported whatever the register operands are (R106, DEDUCED, log 13). -/
def aluApply (sel : AluSelect) (a b : Byte) (s : State) : Except FaultCode State :=
  match sel with
  | .other _ => .error .unsupportedOperation
  | .add | .mul => do
    let ra ← regOperand a
    let rb ← regOperand b
    let v ← aluResult sel (s.reg ra) (s.reg rb)
    .ok (s.setReg ra v)

/-- ADD: `x[a] <- (x[a] + x[b]) mod 256; pc <- pc + 3` (R83). -/
def execAdd (a b : Byte) (s : State) : Host.Outcome State Fault Refusal :=
  commit s do
    let t ← aluApply .add a b s
    .ok (t.advance 3)

/-- MUL: `x[a] <- (x[a] * x[b]) mod 256; pc <- pc + 3` (R84). -/
def execMul (a b : Byte) (s : State) : Host.Outcome State Fault Refusal :=
  commit s do
    let t ← aluApply .mul a b s
    .ok (t.advance 3)

end Sys2Proof.Machine
end

