-- ==== Sys2Proof/Machine/Stack.lean ====
section
/-! DEFINITION. PUSH and POP (43_stack.md), with the push and pop of one byte that CALL and RET share (R90). -/

namespace Sys2Proof.Machine

/-- A byte goes to the cell below the top of the stack, and `sp` is decremented (R25, R87, R91). -/
def pushByte (v : Byte) (s : State) : Except FaultCode State := do
  let sp' ← pushedSp s
  let t ← memWrite sp'.toNat v s
  .ok (t.setSp sp')

/-- The byte at the top of the stack, and the state with `sp` incremented (R25, R88, R92). -/
def popByte (s : State) : Except FaultCode (Byte × State) := do
  let sp' ← poppedSp s
  let v ← memRead s.sp.toNat s
  .ok (v, s.setSp sp')

/-- PUSH: `mem[sp-1] <- x[a]; sp <- sp - 1; pc <- pc + 2` (R87). -/
def execPush (a : Byte) (s : State) : Host.Outcome State Fault Refusal :=
  commit s do
    let ra ← regOperand a
    let t ← pushByte (s.reg ra) s
    .ok (t.advance 2)

/-- POP: `x[a] <- mem[sp]; sp <- sp + 1; pc <- pc + 2` (R88). -/
def execPop (a : Byte) (s : State) : Host.Outcome State Fault Refusal :=
  commit s do
    let ra ← regOperand a
    let (v, t) ← popByte s
    .ok ((t.setReg ra v).advance 2)

end Sys2Proof.Machine
end

