-- ==== Sys2Proof/Machine/ControlFlow.lean ====
section
/-! DEFINITION. CALL and RET (44_call_ret.md). -/

namespace Sys2Proof.Machine

/-- CALL: `mem[sp-1] <- pc + 2; sp <- sp - 1; pc <- x[a]` (R91).
The stack check comes before the return-address check (R95, R102). -/
def execCall (a : Byte) (s : State) : Host.Outcome State Fault Refusal :=
  commit s do
    let ra ← regOperand a
    let _ ← pushedSp s
    let link ← returnAddress s
    let t ← pushByte link s
    .ok (t.jump (s.reg ra))

/-- RET: `pc <- mem[sp]; sp <- sp + 1` (R92). -/
def execRet (s : State) : Host.Outcome State Fault Refusal :=
  commit s do
    let (v, t) ← popByte s
    .ok (t.jump v)

end Sys2Proof.Machine
end

