-- ==== Sys2Proof/Machine/Flags.lean ====
section
/-! DEFINITION. The machine's flags. There are no condition flags (R33); the only flag is the running flag, and the engine status is computed from it and the fault latch. -/

namespace Sys2Proof.Machine

/-- The engine status, a function of the running flag and the fault latch (R30). -/
def State.status (s : State) : EngineStatus :=
  match s.fault with
  | some f => .faulted f
  | none => if s.running then .running else .halted

/-- `running <- false`, HLT's write (R28, R96). -/
def State.clearRunning (s : State) : State := { s with running := false }

/-- The number of a fault latch value (R99; the spec's own numbering D7, log 17); no rule computes with it. -/
def faultNumber : Option FaultCode → Nat
  | none => 0
  | some .outOfBounds => 1
  | some .invalidRegister => 2
  | some .invalidOpcode => 3
  | some .unsupportedOperation => 4
  | some .stackOverflow => 5
  | some .stackUnderflow => 6
  | some .programTooLarge => 7

end Sys2Proof.Machine
end

