-- ==== Sys2Proof/Machine/Halt.lean ====
section
/-! DEFINITION. HLT (45_hlt.md). -/

namespace Sys2Proof.Machine

/-- HLT: `running <- false; pc <- pc + 1`; it cannot fault (R96; the pc by 90_conflicts.md C1, log 9). -/
def execHlt (s : State) : Host.Outcome State Fault Refusal :=
  commit s (.ok (s.clearRunning.advance 1))

end Sys2Proof.Machine
end

