-- ==== Sys2Proof/Machine/LoadPrint.lean ====
section
/-! DEFINITION. LDI and PRN (41_ldi_prn.md). -/

namespace Sys2Proof.Machine

/-- LDI: `x[a] <- imm; pc <- pc + 3` (R78). -/
def execLdi (a imm : Byte) (s : State) : Host.Outcome State Fault Refusal :=
  commit s do
    let ra ← regOperand a
    .ok ((s.setReg ra imm).advance 3)

/-- PRN: `out <- out ++ [x[a]]; pc <- pc + 2`; the register itself, never a memory cell it points at (R79, R80). -/
def execPrn (a : Byte) (s : State) : Host.Outcome State Fault Refusal :=
  commit s do
    let ra ← regOperand a
    .ok ((s.emit (s.reg ra)).advance 2)

end Sys2Proof.Machine
end

