-- ==== Sys2Proof/Machine/Engine.lean ====
section
/-! DEFINITION. Fetch, decode and the whole step over a given opcode map (40_engine_cycle.md), and the placing of an instruction's bytes where the next step fetches. -/

namespace Sys2Proof.Machine

/-- The bytes an instruction at `pc` can take: the cells at `pc`, `pc+1`, `pc+2` that exist; none at `pc = 256` (R36, R68, R70).
All are read before the decode; a read has no side effect, so this is not observable (R35, R70, 90_conflicts.md C8; DEDUCED, log 20). -/
def fetchBytes (s : State) : List Byte :=
  Memory.readBytes s.mem s.pc.toNat (min Config.maxLength (Config.memCells - s.pc.toNat))

/-- The fault each decode error raises: the opcode fetch or an operand fetch beyond the memory, or an opcode outside the set (R68, R69, R70). -/
def decodeFault : DecodeError → FaultCode
  | .noOpcode => .outOfBounds
  | .invalidOpcode _ => .invalidOpcode
  | .missingOperand _ => .outOfBounds

/-- Fetch, decode and execute one instruction, whatever the status (R68 to R71). -/
def cycleWith (m : OpcodeMap) (s : State) : Host.Outcome State Fault Refusal :=
  match decodeWith m (fetchBytes s) with
  | .ok (i, _) => exec i s
  | .error e => raise (decodeFault e) s

/-- One step: enabled exactly when the status is Running (R67); a stopped engine has none (R30). -/
def stepWith (m : OpcodeMap) (s : State) : Host.Outcome State Fault Refusal :=
  match s.status with
  | .running => cycleWith m s
  | .halted => .fault .engineHalted
  | .faulted f => .fault (.engineFaulted f)

/-- Bytes stored from `pc` upward, those that have a cell. -/
def State.placeAtPc (s : State) (bytes : List Byte) : State :=
  { s with mem := Memory.store s.mem s.pc.toNat (bytes.take (Config.memCells - s.pc.toNat)) }

end Sys2Proof.Machine
end

