-- ==== Sys2Proof/Machine/Step.lean ====
section
/-! DEFINITION. The step of the machine under the default opcode bytes, and the placing of a table word at the fetch address. -/

namespace Sys2Proof.Machine

/-- One step of the hardware: fetch, decode, execute (R67 to R72), with the default opcode bytes (R58, log 1). -/
def step (s : State) : Host.Outcome State Fault Refusal := stepWith defaultOpcodes s

/-- The state with a table word's bytes (zeros above `nbits`, up to three bytes) at `pc`, where the next step fetches.
It stands for the host's `load` (R49); nothing but memory changes (log 18). -/
def State.withFetchWord (s : State) (nbits w : Nat) : State := s.placeAtPc (tableBytes nbits w)

end Sys2Proof.Machine
end

