-- ==== Sys2Proof/Machine/Listing.lean ====
section
/-! DEFINITION. The whole step as the one function of R72, written from that listing on numbers and memory cells, without the decoder and without the instruction meanings: a second model of the step, to be proved equal to it. -/

namespace Sys2Proof.Machine

/-- `n <- len(ir) - 1` (R54, R72). -/
def listingOperandCount (m : OpcodeMap) (ir : Byte) : Nat :=
  if ir ∈ [m.ldi, m.add, m.mul] then 2
  else if ir ∈ [m.prn, m.push, m.pop, m.call] then 1
  else 0

/-- `x[i]` for an index already checked. -/
def listingReg (s : State) (i : Byte) : Byte := s.x.get (Fin.ofNat 8 i.toNat)

/-- `x[i] <- v` for an index already checked. -/
def listingSetReg (s : State) (i : Byte) (v : Nat) : RegFile := s.x.set (Fin.ofNat 8 i.toNat) (BitVec.ofNat 8 v)

/-- The listing of R72: the state after one step of a Running engine. -/
def stepListing (m : OpcodeMap) (s : State) : State :=
  let pc := s.pc.toNat
  let sp := s.sp.toNat
  if pc > 255 then { s with fault := some .outOfBounds } else
  let ir := Memory.read s.mem pc
  if ir ∉ m.toList then { s with fault := some .invalidOpcode } else
  let n := listingOperandCount m ir
  if n ≥ 1 ∧ pc + 1 > 255 then { s with fault := some .outOfBounds } else
  if n = 2 ∧ pc + 2 > 255 then { s with fault := some .outOfBounds } else
  let a := Memory.read s.mem (pc + 1)
  let b := Memory.read s.mem (pc + 2)
  if ir = m.ldi then
    if a.toNat > 7 then { s with fault := some .invalidRegister }
    else { s with x := listingSetReg s a b.toNat, pc := BitVec.ofNat 9 (pc + 3) }
  else if ir = m.prn then
    if a.toNat > 7 then { s with fault := some .invalidRegister }
    else { s with out := s.out ++ [listingReg s a], pc := BitVec.ofNat 9 (pc + 2) }
  else if ir = m.add then
    if a.toNat > 7 ∨ b.toNat > 7 then { s with fault := some .invalidRegister }
    else { s with
      x := listingSetReg s a (((listingReg s a).toNat + (listingReg s b).toNat) % 256), pc := BitVec.ofNat 9 (pc + 3) }
  else if ir = m.mul then
    if a.toNat > 7 ∨ b.toNat > 7 then { s with fault := some .invalidRegister }
    else { s with
      x := listingSetReg s a (((listingReg s a).toNat * (listingReg s b).toNat) % 256), pc := BitVec.ofNat 9 (pc + 3) }
  else if ir = m.push then
    if a.toNat > 7 then { s with fault := some .invalidRegister }
    else if sp = 0 then { s with fault := some .stackOverflow }
    else { s with
      mem := Memory.write s.mem (sp - 1) (listingReg s a), sp := BitVec.ofNat 8 (sp - 1), pc := BitVec.ofNat 9 (pc + 2) }
  else if ir = m.pop then
    if a.toNat > 7 then { s with fault := some .invalidRegister }
    else if sp = 255 then { s with fault := some .stackUnderflow }
    else { s with
      x := listingSetReg s a (Memory.read s.mem sp).toNat, sp := BitVec.ofNat 8 (sp + 1), pc := BitVec.ofNat 9 (pc + 2) }
  else if ir = m.call then
    if a.toNat > 7 then { s with fault := some .invalidRegister }
    else if sp = 0 then { s with fault := some .stackOverflow }
    else if pc + 2 > 255 then { s with fault := some .outOfBounds }
    else { s with
      mem := Memory.write s.mem (sp - 1) (BitVec.ofNat 8 (pc + 2)), sp := BitVec.ofNat 8 (sp - 1),
      pc := BitVec.ofNat 9 (listingReg s a).toNat }
  else if ir = m.ret then
    if sp = 255 then { s with fault := some .stackUnderflow }
    else { s with pc := BitVec.ofNat 9 (Memory.read s.mem sp).toNat, sp := BitVec.ofNat 8 (sp + 1) }
  else { s with running := false, pc := BitVec.ofNat 9 (pc + 1) }

end Sys2Proof.Machine
end

