-- ==== Sys2Proof/Machine/Session.lean ====
section
/-! DEFINITION. The host operations `new`, `load` and `run` (20_memory.md section 5, 40_engine_cycle.md section 2, 70_reset_and_hazards.md section 1): their effect on the machine, and the order in which they have a meaning. -/

namespace Sys2Proof.Machine

/-- `load(program)`: at most 256 bytes, written from address 0 upward, and nothing else; a longer program fails and writes nothing (R49, R50, R51; log 10). -/
def load (program : List Byte) (s : State) : Except FaultCode State :=
  if program.length ≤ Config.memCells then .ok { s with mem := Memory.store s.mem Config.loadBase program }
  else .error .programTooLarge

/-- The run loop, at most `fuel` steps of it: the step is repeated while the status is Running (R73).
A run may never end (R74, R127), so a total function takes a bound (log 14). -/
def runWith (m : OpcodeMap) : Nat → State → State
  | 0, s => s
  | fuel + 1, s =>
    match stepWith m s with
    | .next t => runWith m fuel t
    | .fault _ => s
    | .refused _ => s

/-- How far the host has come in the one sequence that has a meaning: `new`, `load` any number of times, one `run` (R118, R121). -/
inductive SessionPhase where
  /-- Constructed; every `load` so far has succeeded. -/
  | ready
  /-- Constructed; some `load` failed. -/
  | loadFailed
  /-- The one run has begun. -/
  | runBegan
  deriving DecidableEq, Repr

/-- A machine in its host's hands. The phase is the model's own bookkeeping, no state of the machine (log 11). -/
structure Session where
  machine : State
  phase : SessionPhase
  deriving DecidableEq, Repr

/-- `new()`, for given register reset values (R34, R118). -/
def hostNew (regReset : RegFile) : Session := { machine := State.resetWith regReset, phase := .ready }

/-- `load(program)`, with its answer to the host: `none`, or `ProgramTooLarge` with the machine as it was (R51, R107). Refused once the run has begun (R121). -/
def hostLoad (program : List Byte) (h : Session) : Host.Outcome (Session × Option FaultCode) Fault Refusal :=
  match h.phase with
  | .runBegan => .refused .loadAfterRunBegan
  | .ready | .loadFailed =>
    match load program h.machine with
    | .ok t => .next ({ h with machine := t }, none)
    | .error f => .next ({ h with phase := .loadFailed }, some f)

/-- `run()`: the run from what `new` and `load` left, for at most `fuel` steps, with the status it hands to the host: Halted, Faulted, or Running when the bound ended it (R73, R74).
Refused a second time, and after a failed `load` (R121). -/
def hostRun (fuel : Nat) (h : Session) : Host.Outcome (Session × EngineStatus) Fault Refusal :=
  match h.phase with
  | .ready =>
    let t := runWith defaultOpcodes fuel h.machine
    .next ({ machine := t, phase := .runBegan }, t.status)
  | .loadFailed => .refused .runAfterFailedLoad
  | .runBegan => .refused .secondRun

/-- The same run taken further, for at most `fuel` more steps: not a host operation, but the rest of the one `run()` (log 14). -/
def hostContinue (fuel : Nat) (h : Session) : Host.Outcome (Session × EngineStatus) Fault Refusal :=
  match h.phase with
  | .runBegan =>
    let t := runWith defaultOpcodes fuel h.machine
    .next ({ h with machine := t }, t.status)
  | .ready => .refused .noRunToContinue
  | .loadFailed => .refused .noRunToContinue

end Sys2Proof.Machine
end

