-- ==== Sys2Proof/Safety.lean ====
section
/-! DEFINITION. What the claims are stated in: the invariant of the machine's states, a safe run, an engine about to execute a given opcode, and the fault table of R101. -/

namespace Sys2Proof.Machine

/-- The invariant of every reachable state: memory canonical; pc at most 256 (R20, R22); a fault never with the running flag cleared (R30); the latch never `UnsupportedOperation` (R106) nor `ProgramTooLarge` (R107). -/
structure State.Inv (s : State) : Prop where
  memCanonical : Memory.wf s.mem = true
  pcLegal : s.pc.toNat ≤ 256
  faultWhileRunning : s.fault ≠ none → s.running = true
  aluNeverAsked : s.fault ≠ some .unsupportedOperation
  loadNeverLatched : s.fault ≠ some .programTooLarge

/-- A run is safe so far: no fault has been raised (R74, R104). -/
def State.safe (s : State) : Prop := s.fault = none

/-- The first `fuel` steps of the run from `s` raise no fault. -/
def safeRun (m : OpcodeMap) (fuel : Nat) (s : State) : Prop := (runWith m fuel s).safe

/-- The engine is Running and the byte at `pc` is the opcode byte of `o`. -/
def atOpcode (m : OpcodeMap) (o : Opcode) (s : State) : Prop :=
  s.status = .running ∧ s.pc.toNat ≤ 255 ∧ Memory.read s.mem s.pc.toNat = m.byte o

/-- The byte at `pc + k`: an operand byte of the instruction at `pc` (R38, R70). -/
def State.operandByte (s : State) (k : Nat) : Byte := Memory.read s.mem (s.pc.toNat + k)

/-- The exact fault conditions of the step of a Running engine, the table of R101 read row by row in the priority order of R102. -/
def faultTable (m : OpcodeMap) (s : State) : Option FaultCode :=
  let pc := s.pc.toNat
  let op := Memory.read s.mem pc
  let badA := 7 < (s.operandByte 1).toNat
  let badB := 7 < (s.operandByte 2).toNat
  if 256 ≤ pc then some .outOfBounds
  else if op = m.ldi then
    if 254 ≤ pc then some .outOfBounds else if badA then some .invalidRegister else none
  else if op = m.prn then
    if pc = 255 then some .outOfBounds else if badA then some .invalidRegister else none
  else if op = m.add ∨ op = m.mul then
    if 254 ≤ pc then some .outOfBounds else if badA ∨ badB then some .invalidRegister else none
  else if op = m.push then
    if pc = 255 then some .outOfBounds else if badA then some .invalidRegister
    else if s.sp = 0#8 then some .stackOverflow else none
  else if op = m.pop then
    if pc = 255 then some .outOfBounds else if badA then some .invalidRegister
    else if s.sp = 255#8 then some .stackUnderflow else none
  else if op = m.call then
    if pc = 255 then some .outOfBounds else if badA then some .invalidRegister
    else if s.sp = 0#8 then some .stackOverflow
    else if pc = 254 then some .outOfBounds else none
  else if op = m.ret then
    if s.sp = 255#8 then some .stackUnderflow else none
  else if op = m.hlt then none
  else some .invalidOpcode

end Sys2Proof.Machine
end

