-- ==== Sys2Proof/Certificates/Slice0/Obligations.lean ====
section
/-! DEFINITION. The statements for the provers. A frame is written t = (s with the named fields of t): every other field, memory included where it is not named, is as before. Statements about the step hold for every opcode map with distinct bytes (R59), so none of them rests on the default opcode bytes (log 1) unless its docstring says so. -/

open Sys2Proof Sys2Proof.Machine

/-! ### Encoding and decoding -/

/-- Nine words written out from R54 and R58 decode to the instruction they stand for. The opcode bytes are the spec's defaults, PRESUMED there (log 1). -/
def Obligations.DefaultWordsDecodeToTheirInstructions : Prop :=
  decode [0b10000010#8, 3#8, 200#8] = .ok (.ldi 3#8 200#8, []) ∧
  decode [0b01000111#8, 7#8] = .ok (.prn 7#8, []) ∧
  decode [0b10100000#8, 1#8, 2#8] = .ok (.add 1#8 2#8, []) ∧
  decode [0b10100010#8, 4#8, 5#8] = .ok (.mul 4#8 5#8, []) ∧
  decode [0b01000101#8, 6#8] = .ok (.push 6#8, []) ∧
  decode [0b01000110#8, 0#8] = .ok (.pop 0#8, []) ∧
  decode [0b01010000#8, 1#8] = .ok (.call 1#8, []) ∧
  decode [0b00010001#8] = .ok (.ret, []) ∧
  decode [0b00000001#8] = .ok (.hlt, [])

/-- Under every assignment of distinct opcode bytes, every instruction, its operand bytes at any value, decodes from its encoding, and the bytes after it are left over (R53, R54, R59). -/
def Obligations.DecodeOfEncodeIsTheInstruction : Prop :=
  ∀ (m : OpcodeMap), m.Distinct → ∀ (i : Instr) (rest : List Byte),
    decodeWith m (encodeWith m i ++ rest) = .ok (i, rest)

/-- Bytes that decode are the encoding of what they decode to: no two encodings of one instruction, no bit ignored (R61, R62). -/
def Obligations.EncodeOfDecodeIsTheBytes : Prop :=
  ∀ (m : OpcodeMap) (bytes rest : List Byte) (i : Instr),
    decodeWith m bytes = .ok (i, rest) → encodeWith m i ++ rest = bytes

/-- The opcode byte alone gives the instruction and its length: two decodes from one opcode byte give the same dispatch entry and the same length (R53, R57). -/
def Obligations.OpcodeByteAloneSelectsInstructionAndLength : Prop :=
  ∀ (m : OpcodeMap) (op : Byte) (bytes bytes' rest rest' : List Byte) (i i' : Instr),
    decodeWith m (op :: bytes) = .ok (i, rest) → decodeWith m (op :: bytes') = .ok (i', rest') →
    i.opcode = i'.opcode ∧ instrLength i = instrLength i' ∧ bytes.length = rest.length + (instrLength i - 1)

/-- The legal opcode bytes are exactly nine, and 0x00, 0xA1 and 0xA3 are illegal (R60, R61). Rests on the default opcode bytes, PRESUMED (log 1). -/
def Obligations.ExactlyNineOpcodeBytesAreLegal : Prop :=
  (∀ (op : Byte) (rest : List Byte), decode (op :: rest) = .error (.invalidOpcode op) ↔
    op ∉ [0x01#8, 0x11#8, 0x45#8, 0x46#8, 0x47#8, 0x50#8, 0x82#8, 0xA0#8, 0xA2#8]) ∧
  decode [0x00#8, 0#8, 0#8] = .error (.invalidOpcode 0x00#8) ∧
  decode [0xA1#8, 0#8, 0#8] = .error (.invalidOpcode 0xA1#8) ∧
  decode [0xA3#8, 0#8, 0#8] = .error (.invalidOpcode 0xA3#8)

/-- The default opcode bytes hold the operand count in bits 7:6 and the ALU mark in bit 5, and are admissible by R59. Rests on the default opcode bytes, PRESUMED (log 1, R55). -/
def Obligations.DefaultOpcodeBitsGiveCountAndAluMark : Prop :=
  (∀ o : Opcode, ((defaultOpcodes.byte o).extractLsb 7 6).toNat = operandCount o ∧
    (defaultOpcodes.byte o).getLsbD 5 = isAluOpcode o) ∧
  defaultOpcodes.admissible

/-! ### Fetch, decode and the step -/

/-- A Running engine whose fetched bytes decode to an instruction takes exactly that instruction's step, under every opcode map and so under the default one; nothing is added around it (R67 to R71). -/
def Obligations.StepRunsTheDecodedInstruction : Prop :=
  (∀ (m : OpcodeMap) (s : State) (i : Instr) (rest : List Byte), s.status = .running →
    decodeWith m (fetchBytes s) = .ok (i, rest) → stepWith m s = exec i s) ∧
  (∀ (s : State) (i : Instr) (rest : List Byte), s.status = .running →
    decode (fetchBytes s) = .ok (i, rest) → step s = exec i s)

/-- A Running engine whose memory holds an instruction's encoding from `pc` on, all of it below 256, takes that instruction's step, whatever stands after it (R53, R63, R68 to R71). -/
def Obligations.StepRunsTheEncodedInstructionInMemory : Prop :=
  ∀ (m : OpcodeMap), m.Distinct → ∀ (s : State) (i : Instr), s.status = .running →
    s.pc.toNat + instrLength i ≤ 256 →
    Memory.readBytes s.mem s.pc.toNat (instrLength i) = encodeWith m i →
    stepWith m s = exec i s

/-- The table word the host places at `pc` is what the next step runs (log 18). -/
def Obligations.PlacedTableWordRunsNext : Prop :=
  ∀ (s : State) (nbits w : Nat) (i : Instr), s.status = .running → Memory.wf s.mem = true → s.pc.toNat ≤ 253 →
    decodeTableWord nbits w = some i →
    step (s.withFetchWord nbits w) = exec i (s.withFetchWord nbits w) ∧
    (s.withFetchWord nbits w) = { s with mem := (s.withFetchWord nbits w).mem } ∧
    (∀ a, a < s.pc.toNat ∨ s.pc.toNat + 3 ≤ a → Memory.read (s.withFetchWord nbits w).mem a = Memory.read s.mem a)

/-- An opcode fetch beyond the memory raises `OutOfBounds` and leaves pc where it is (R68). -/
def Obligations.FetchBeyondMemoryRaisesOutOfBounds : Prop :=
  ∀ (m : OpcodeMap) (s : State), s.status = .running → 256 ≤ s.pc.toNat →
    stepWith m s = .next { s with fault := some .outOfBounds }

/-- A byte outside the opcode set, fetched as an opcode, raises `InvalidOpcode`; pc, registers, sp, memory, the running flag and the output stay as they were, also where operand bytes would be missing (R69). -/
def Obligations.OpcodeOutsideTheSetRaisesInvalidOpcode : Prop :=
  ∀ (m : OpcodeMap) (s : State), s.status = .running → s.pc.toNat ≤ 255 →
    Memory.read s.mem s.pc.toNat ∉ m.toList →
    stepWith m s = .next { s with fault := some .invalidOpcode }

/-- An operand fetch at 256 or 257 raises `OutOfBounds`: exactly pc = 255 for a legal opcode with operands, and pc = 254 for one with two; otherwise the instruction with the operand bytes at pc+1, pc+2 executes (R70). -/
def Obligations.OperandFetchBeyondMemoryRaisesOutOfBounds : Prop :=
  ∀ (m : OpcodeMap), m.Distinct → ∀ (o : Opcode) (s : State), atOpcode m o s →
    (256 < s.pc.toNat + 1 + operandCount o → stepWith m s = .next { s with fault := some .outOfBounds }) ∧
    (s.pc.toNat + 1 + operandCount o ≤ 256 → ∃ i : Instr, i.opcode = o ∧
      i.operands = ([s.operandByte 1, s.operandByte 2].take (operandCount o)) ∧ stepWith m s = exec i s)

/-- A step is enabled exactly when the status is Running; Halted and Faulted have no step, and the latch and the flag give the status (R30, R67). -/
def Obligations.StepIsEnabledExactlyWhenRunning : Prop :=
  ∀ (m : OpcodeMap) (s : State),
    ((∃ t, stepWith m s = .next t) ↔ (s.running = true ∧ s.fault = none)) ∧
    (s.running = false → s.fault = none → stepWith m s = .fault .engineHalted) ∧
    (∀ f, s.fault = some f → stepWith m s = .fault (.engineFaulted f))

/-- The step of a Running engine is the function listed in R72, written out a second time from that listing on numbers and cells. -/
def Obligations.StepEqualsTheListing : Prop :=
  ∀ (m : OpcodeMap), m.Distinct → ∀ s : State, s.status = .running → stepWith m s = .next (stepListing m s)

/-- The latch after a step of a Running engine is what the table of fault conditions says, read in the priority order, and a step with no fault latches nothing (R101, R102). The order of the execution faults and CALL at 254 are the spec's own choices (D8, D10; log 7, log 8). -/
def Obligations.FaultOfAStepIsTheFaultTable : Prop :=
  ∀ (m : OpcodeMap), m.Distinct → ∀ s : State, s.status = .running →
    ∃ t, stepWith m s = .next t ∧ t.fault = faultTable m s

/-! ### The nine instructions -/

/-- LDI: the register takes the immediate, pc advances by 3, nothing else changes; a bad index raises `InvalidRegister`; operands beyond the memory raise `OutOfBounds` first (R78). -/
def Obligations.LdiWritesTheImmediate : Prop :=
  (∀ (a imm : Byte) (r : Fin 8) (s : State), a.toNat = r.val → s.pc.toNat ≤ 253 →
    ∃ t, exec (.ldi a imm) s = .next t ∧ t.x.get r = imm ∧ (∀ q, q ≠ r → t.x.get q = s.x.get q) ∧
      t.pc.toNat = s.pc.toNat + 3 ∧ t = { s with x := t.x, pc := t.pc }) ∧
  (∀ (a imm : Byte) (s : State), 7 < a.toNat →
    exec (.ldi a imm) s = .next { s with fault := some .invalidRegister }) ∧
  (∀ (m : OpcodeMap) (s : State), m.Distinct → atOpcode m .ldi s →
    (254 ≤ s.pc.toNat → stepWith m s = .next { s with fault := some .outOfBounds }) ∧
    (s.pc.toNat ≤ 253 → stepWith m s = exec (.ldi (s.operandByte 1) (s.operandByte 2)) s))

/-- PRN: the register's own value is appended to the output, pc advances by 2, nothing else changes, no memory cell is read for it; with its faults (R79, R80). -/
def Obligations.PrnAppendsTheRegister : Prop :=
  (∀ (a : Byte) (r : Fin 8) (s : State), a.toNat = r.val → s.pc.toNat ≤ 254 →
    ∃ t, exec (.prn a) s = .next t ∧ t.out = s.out ++ [s.x.get r] ∧ t.pc.toNat = s.pc.toNat + 2 ∧
      t = { s with out := t.out, pc := t.pc }) ∧
  (∀ (a : Byte) (s : State), 7 < a.toNat → exec (.prn a) s = .next { s with fault := some .invalidRegister }) ∧
  (∀ (m : OpcodeMap) (s : State), m.Distinct → atOpcode m .prn s →
    (s.pc.toNat = 255 → stepWith m s = .next { s with fault := some .outOfBounds }) ∧
    (s.pc.toNat ≤ 254 → stepWith m s = exec (.prn (s.operandByte 1)) s))

/-- ADD: register a takes the sum modulo 256 of the two registers, both read before the write and possibly the same; pc advances by 3, nothing else changes; with its faults (R83). -/
def Obligations.AddWritesTheSumModulo256 : Prop :=
  (∀ (a b : Byte) (ra rb : Fin 8) (s : State), a.toNat = ra.val → b.toNat = rb.val → s.pc.toNat ≤ 253 →
    ∃ t, exec (.add a b) s = .next t ∧
      (t.x.get ra).toNat = ((s.x.get ra).toNat + (s.x.get rb).toNat) % 256 ∧
      (∀ q, q ≠ ra → t.x.get q = s.x.get q) ∧ t.pc.toNat = s.pc.toNat + 3 ∧ t = { s with x := t.x, pc := t.pc }) ∧
  (∀ (a b : Byte) (s : State), 7 < a.toNat ∨ 7 < b.toNat →
    exec (.add a b) s = .next { s with fault := some .invalidRegister }) ∧
  (∀ (m : OpcodeMap) (s : State), m.Distinct → atOpcode m .add s →
    (254 ≤ s.pc.toNat → stepWith m s = .next { s with fault := some .outOfBounds }) ∧
    (s.pc.toNat ≤ 253 → stepWith m s = exec (.add (s.operandByte 1) (s.operandByte 2)) s))

/-- MUL: register a takes the product modulo 256, the high half is lost; otherwise as ADD (R84). -/
def Obligations.MulWritesTheProductModulo256 : Prop :=
  (∀ (a b : Byte) (ra rb : Fin 8) (s : State), a.toNat = ra.val → b.toNat = rb.val → s.pc.toNat ≤ 253 →
    ∃ t, exec (.mul a b) s = .next t ∧
      (t.x.get ra).toNat = ((s.x.get ra).toNat * (s.x.get rb).toNat) % 256 ∧
      (∀ q, q ≠ ra → t.x.get q = s.x.get q) ∧ t.pc.toNat = s.pc.toNat + 3 ∧ t = { s with x := t.x, pc := t.pc }) ∧
  (∀ (a b : Byte) (s : State), 7 < a.toNat ∨ 7 < b.toNat →
    exec (.mul a b) s = .next { s with fault := some .invalidRegister }) ∧
  (∀ (m : OpcodeMap) (s : State), m.Distinct → atOpcode m .mul s →
    (254 ≤ s.pc.toNat → stepWith m s = .next { s with fault := some .outOfBounds }) ∧
    (s.pc.toNat ≤ 253 → stepWith m s = exec (.mul (s.operandByte 1) (s.operandByte 2)) s))

/-- PUSH: the cell below the top of the stack takes the register, sp is decremented, pc advances by 2, every other cell and all else unchanged; with its faults, the register check before the stack check (R87; the order is the spec's choice D8, log 7). -/
def Obligations.PushStoresTheRegister : Prop :=
  (∀ (a : Byte) (r : Fin 8) (s : State), a.toNat = r.val → 1 ≤ s.sp.toNat → s.pc.toNat ≤ 254 →
    Memory.wf s.mem = true →
    ∃ t, exec (.push a) s = .next t ∧ Memory.read t.mem (s.sp.toNat - 1) = s.x.get r ∧
      (∀ adr, adr ≠ s.sp.toNat - 1 → Memory.read t.mem adr = Memory.read s.mem adr) ∧
      t.sp.toNat = s.sp.toNat - 1 ∧ t.pc.toNat = s.pc.toNat + 2 ∧
      t = { s with mem := t.mem, sp := t.sp, pc := t.pc }) ∧
  (∀ (a : Byte) (s : State), 7 < a.toNat → exec (.push a) s = .next { s with fault := some .invalidRegister }) ∧
  (∀ (a : Byte) (s : State), a.toNat ≤ 7 → s.sp.toNat = 0 →
    exec (.push a) s = .next { s with fault := some .stackOverflow }) ∧
  (∀ (m : OpcodeMap) (s : State), m.Distinct → atOpcode m .push s →
    (s.pc.toNat = 255 → stepWith m s = .next { s with fault := some .outOfBounds }) ∧
    (s.pc.toNat ≤ 254 → stepWith m s = exec (.push (s.operandByte 1)) s))

/-- POP: the register takes the byte at the top of the stack, sp is incremented, pc advances by 2, memory and all else unchanged; with its faults (R88). That an underflowing POP leaves its register unwritten is the spec's own choice (D9, log 6), and so is the order of its checks (D8, log 7). -/
def Obligations.PopLoadsTheTopOfTheStack : Prop :=
  (∀ (a : Byte) (r : Fin 8) (s : State), a.toNat = r.val → s.sp.toNat ≤ 254 → s.pc.toNat ≤ 254 →
    ∃ t, exec (.pop a) s = .next t ∧ t.x.get r = Memory.read s.mem s.sp.toNat ∧
      (∀ q, q ≠ r → t.x.get q = s.x.get q) ∧ t.sp.toNat = s.sp.toNat + 1 ∧ t.pc.toNat = s.pc.toNat + 2 ∧
      t = { s with x := t.x, sp := t.sp, pc := t.pc }) ∧
  (∀ (a : Byte) (s : State), 7 < a.toNat → exec (.pop a) s = .next { s with fault := some .invalidRegister }) ∧
  (∀ (a : Byte) (s : State), a.toNat ≤ 7 → s.sp.toNat = 255 →
    exec (.pop a) s = .next { s with fault := some .stackUnderflow }) ∧
  (∀ (m : OpcodeMap) (s : State), m.Distinct → atOpcode m .pop s →
    (s.pc.toNat = 255 → stepWith m s = .next { s with fault := some .outOfBounds }) ∧
    (s.pc.toNat ≤ 254 → stepWith m s = exec (.pop (s.operandByte 1)) s))

/-- CALL: pc + 2 is pushed and pc becomes the register's value; registers and every other cell unchanged; with its faults in their order (R91, R95). `OutOfBounds` at pc = 254 is the spec's own choice (D10, log 8), and so is the order of the checks (D8, log 7). -/
def Obligations.CallPushesTheReturnAddressAndJumps : Prop :=
  (∀ (a : Byte) (r : Fin 8) (s : State), a.toNat = r.val → 1 ≤ s.sp.toNat → s.pc.toNat ≤ 253 →
    Memory.wf s.mem = true →
    ∃ t, exec (.call a) s = .next t ∧ (Memory.read t.mem (s.sp.toNat - 1)).toNat = s.pc.toNat + 2 ∧
      (∀ adr, adr ≠ s.sp.toNat - 1 → Memory.read t.mem adr = Memory.read s.mem adr) ∧
      t.sp.toNat = s.sp.toNat - 1 ∧ t.pc.toNat = (s.x.get r).toNat ∧
      t = { s with mem := t.mem, sp := t.sp, pc := t.pc }) ∧
  (∀ (a : Byte) (s : State), 7 < a.toNat → exec (.call a) s = .next { s with fault := some .invalidRegister }) ∧
  (∀ (a : Byte) (s : State), a.toNat ≤ 7 → s.sp.toNat = 0 →
    exec (.call a) s = .next { s with fault := some .stackOverflow }) ∧
  (∀ (a : Byte) (s : State), a.toNat ≤ 7 → 1 ≤ s.sp.toNat → 254 ≤ s.pc.toNat →
    exec (.call a) s = .next { s with fault := some .outOfBounds }) ∧
  (∀ (m : OpcodeMap) (s : State), m.Distinct → atOpcode m .call s →
    (s.pc.toNat = 255 → stepWith m s = .next { s with fault := some .outOfBounds }) ∧
    (s.pc.toNat ≤ 254 → stepWith m s = exec (.call (s.operandByte 1)) s))

/-- RET: pc becomes the byte at the top of the stack and sp is incremented, nothing else changes; with an empty stack it raises `StackUnderflow`; it executes at every pc up to 255 (R92). -/
def Obligations.RetPopsIntoThePc : Prop :=
  (∀ s : State, s.sp.toNat ≤ 254 →
    ∃ t, exec .ret s = .next t ∧ t.pc.toNat = (Memory.read s.mem s.sp.toNat).toNat ∧ t.sp.toNat = s.sp.toNat + 1 ∧
      t = { s with sp := t.sp, pc := t.pc }) ∧
  (∀ s : State, s.sp.toNat = 255 → exec .ret s = .next { s with fault := some .stackUnderflow }) ∧
  (∀ (m : OpcodeMap) (s : State), m.Distinct → atOpcode m .ret s → stepWith m s = exec .ret s)

/-- HLT: the running flag is cleared and pc advances by 1, nothing else changes; it cannot fault, at any pc up to 255; the status is then Halted and no step follows, whatever memory holds (R75, R96). That pc advances is the resolution of 90_conflicts.md C1 (D11, log 9). -/
def Obligations.HltClearsTheRunningFlag : Prop :=
  (∀ s : State, s.pc.toNat ≤ 255 →
    ∃ t, exec .hlt s = .next t ∧ t.running = false ∧ t.pc.toNat = s.pc.toNat + 1 ∧
      t = { s with running := false, pc := t.pc }) ∧
  (∀ (m : OpcodeMap) (s : State), m.Distinct → atOpcode m .hlt s → stepWith m s = exec .hlt s) ∧
  (∀ (m : OpcodeMap) (s t : State), s.fault = none → exec .hlt s = .next t → t.status = .halted ∧
    ∀ mem, stepWith m { t with mem := mem } = .fault .engineHalted)

/-! ### Operands and the ALU -/

/-- A register operand of 8 or more, in any position of any instruction, raises `InvalidRegister` and changes nothing else; the index is not masked (R18, R62). -/
def Obligations.IllegalRegisterIndexRaisesInvalidRegister : Prop :=
  ∀ (i : Instr) (s : State), i.wellFormed = false → exec i s = .next { s with fault := some .invalidRegister }

/-- The ALU answers `UnsupportedOperation` for every select other than ADD and MUL, and no step of the engine ever latches that fault (R82, R106). That it is reported even for bad register indices is the model's reading (log 13). -/
def Obligations.UnsupportedOperationIsOnlyTheAluBlocks : Prop :=
  (∀ (k : Nat) (a b : Byte) (s : State), aluApply (.other k) a b s = .error .unsupportedOperation) ∧
  (∀ (m : OpcodeMap) (s t : State), stepWith m s = .next t → t.fault ≠ some .unsupportedOperation)

/-- The ALU's results are those of unsigned and of two's-complement arithmetic alike, wrapped to 8 bits (R85). -/
def Obligations.AluResultsAgreeForUnsignedAndSigned : Prop :=
  ∀ x y : Byte,
    (∃ v, aluResult .add x y = .ok v ∧ v.toNat = (x.toNat + y.toNat) % 256 ∧ v.toInt = (x.toInt + y.toInt).bmod 256) ∧
    (∃ v, aluResult .mul x y = .ok v ∧ v.toNat = (x.toNat * y.toNat) % 256 ∧ v.toInt = (x.toInt * y.toInt).bmod 256)

/-! ### Rules of the whole machine -/

/-- Every step keeps the invariant: memory canonical, pc at most 256, no fault with the running flag cleared, and neither `UnsupportedOperation` nor `ProgramTooLarge` in the latch (R22, R30, R106, R107). -/
def Obligations.EveryStepKeepsTheInvariant : Prop :=
  ∀ (m : OpcodeMap) (s t : State), s.Inv → stepWith m s = .next t → t.Inv

/-- The invariant holds after reset, for every register reset value. -/
def Obligations.ResetMeetsTheInvariant : Prop :=
  (∀ regs : RegFile, (State.resetWith regs).Inv) ∧ State.reset.Inv

/-- From any program loaded after reset, with any register reset values, the invariant holds at every point of the run (R118). -/
def Obligations.EveryRunOfEveryProgramKeepsTheInvariant : Prop :=
  ∀ (m : OpcodeMap) (regs : RegFile) (program : List Byte) (s : State),
    load program (State.resetWith regs) = .ok s → ∀ fuel : Nat, (runWith m fuel s).Inv

/-- A step that raises a fault commits nothing: memory, registers, pc, sp, the running flag and the output are exactly as before it, and only the latch changes (R103). That this holds for every fault is the spec's own choice (D9, log 6). -/
def Obligations.FaultingStepChangesOnlyTheLatch : Prop :=
  ∀ (m : OpcodeMap) (s t : State), stepWith m s = .next t → t.fault ≠ none → t = { s with fault := t.fault }

/-- How each instruction changes pc: by its length 3, 2, 3, 3, 2, 2, or to the register's value, or to the popped byte, or by 1; and not at all when it faults (R21). HLT's 1 is the resolution of 90_conflicts.md C1 (log 9). -/
def Obligations.PcChangesAsTheTableSays : Prop :=
  ∀ (i : Instr) (s t : State), s.fault = none → s.pc.toNat + instrLength i ≤ 256 → exec i s = .next t →
    (t.fault ≠ none → t.pc = s.pc) ∧
    (t.fault = none → match i with
      | .ldi _ _ => t.pc.toNat = s.pc.toNat + 3
      | .prn _ => t.pc.toNat = s.pc.toNat + 2
      | .add _ _ => t.pc.toNat = s.pc.toNat + 3
      | .mul _ _ => t.pc.toNat = s.pc.toNat + 3
      | .push _ => t.pc.toNat = s.pc.toNat + 2
      | .pop _ => t.pc.toNat = s.pc.toNat + 2
      | .call a => ∃ r : Fin 8, a.toNat = r.val ∧ t.pc.toNat = (s.x.get r).toNat
      | .ret => t.pc.toNat = (Memory.read s.mem s.sp.toNat).toNat
      | .hlt => t.pc.toNat = s.pc.toNat + 1)

/-- How each instruction changes sp: PUSH and CALL that complete had sp at least 1 and decrement it, POP and RET had it at most 254 and increment it, every other instruction leaves it; with a legal operand, sp = 0 is `StackOverflow` and sp = 255 is `StackUnderflow`; an instruction that faults leaves sp as it was, so it never wraps (R25, R26). -/
def Obligations.SpChangesAsTheTableSays : Prop :=
  ∀ (i : Instr) (s t : State), s.fault = none → exec i s = .next t →
    (t.fault ≠ none → t.sp = s.sp) ∧
    (match i with
      | .push a => (t.fault = none → 1 ≤ s.sp.toNat ∧ t.sp.toNat = s.sp.toNat - 1) ∧
          (a.toNat ≤ 7 → s.sp.toNat = 0 → t.fault = some .stackOverflow)
      | .call a => (t.fault = none → 1 ≤ s.sp.toNat ∧ t.sp.toNat = s.sp.toNat - 1) ∧
          (a.toNat ≤ 7 → s.sp.toNat = 0 → t.fault = some .stackOverflow)
      | .pop a => (t.fault = none → s.sp.toNat ≤ 254 ∧ t.sp.toNat = s.sp.toNat + 1) ∧
          (a.toNat ≤ 7 → s.sp.toNat = 255 → t.fault = some .stackUnderflow)
      | .ret => (t.fault = none → s.sp.toNat ≤ 254 ∧ t.sp.toNat = s.sp.toNat + 1) ∧
          (s.sp.toNat = 255 → t.fault = some .stackUnderflow)
      | .ldi _ _ => t.sp = s.sp
      | .prn _ => t.sp = s.sp
      | .add _ _ => t.sp = s.sp
      | .mul _ _ => t.sp = s.sp
      | .hlt => t.sp = s.sp)

/-- Only LDI, ADD, MUL and POP write a register, and only the one their first operand names (R16). -/
def Obligations.OnlyTheNamedDestinationRegisterIsWritten : Prop :=
  ∀ (i : Instr) (s t : State), exec i s = .next t →
    match i with
    | .ldi a _ => ∀ q : Fin 8, a.toNat ≠ q.val → t.x.get q = s.x.get q
    | .add a _ => ∀ q : Fin 8, a.toNat ≠ q.val → t.x.get q = s.x.get q
    | .mul a _ => ∀ q : Fin 8, a.toNat ≠ q.val → t.x.get q = s.x.get q
    | .pop a => ∀ q : Fin 8, a.toNat ≠ q.val → t.x.get q = s.x.get q
    | .prn _ => t.x = s.x
    | .push _ => t.x = s.x
    | .call _ => t.x = s.x
    | .ret => t.x = s.x
    | .hlt => t.x = s.x

/-- A register an instruction does not name is neither read nor written by it: with another value there, the same next state results with that value still there (R16). -/
def Obligations.UnnamedRegistersAreNeitherReadNorWritten : Prop :=
  ∀ (i : Instr) (s t : State) (q : Fin 8) (v : Byte), (∀ b ∈ i.registerOperands, b.toNat ≠ q.val) →
    exec i s = .next t →
    exec i { s with x := s.x.set q v } = .next { t with x := t.x.set q v }

/-- Only PUSH and CALL write memory, and only the cell at the stack pointer they compute; every other instruction leaves every byte of memory as it was (R32, R40). -/
def Obligations.OnlyPushAndCallWriteOneCellOfMemory : Prop :=
  ∀ (i : Instr) (s t : State), exec i s = .next t →
    match i with
    | .push _ => ∀ p, pushedSp s = .ok p → ∀ adr, adr ≠ p.toNat → Memory.read t.mem adr = Memory.read s.mem adr
    | .call _ => ∀ p, pushedSp s = .ok p → ∀ adr, adr ≠ p.toNat → Memory.read t.mem adr = Memory.read s.mem adr
    | .ldi _ _ => ∀ adr, Memory.read t.mem adr = Memory.read s.mem adr
    | .prn _ => ∀ adr, Memory.read t.mem adr = Memory.read s.mem adr
    | .add _ _ => ∀ adr, Memory.read t.mem adr = Memory.read s.mem adr
    | .mul _ _ => ∀ adr, Memory.read t.mem adr = Memory.read s.mem adr
    | .pop _ => ∀ adr, Memory.read t.mem adr = Memory.read s.mem adr
    | .ret => ∀ adr, Memory.read t.mem adr = Memory.read s.mem adr
    | .hlt => ∀ adr, Memory.read t.mem adr = Memory.read s.mem adr

/-- The cell at 255 is written by no step: the first push after reset writes 254 and the stack only grows down from there (R25, R42). -/
def Obligations.CellTwoFiftyFiveIsWrittenByNoStep : Prop :=
  (∀ (m : OpcodeMap) (s t : State), stepWith m s = .next t → Memory.read t.mem 255 = Memory.read s.mem 255) ∧
  (∀ (a : Byte) (r : Fin 8) (regs : RegFile), a.toNat = r.val →
    ∃ t, exec (.push a) (State.resetWith regs) = .next t ∧ t.sp.toNat = 254 ∧ Memory.read t.mem 254 = regs.get r)

/-- No step takes anything from the output: it is left alone or one value is appended, and it is appended exactly by a PRN that completes, the value being its register's (R31, R79). -/
def Obligations.OutputGrowsOnlyByPrn : Prop :=
  ∀ (i : Instr) (s t : State), s.fault = none → exec i s = .next t →
    (t.out = s.out ∧ ∀ a, i = .prn a → t.fault ≠ none) ∨
    (∃ (a : Byte) (r : Fin 8), i = .prn a ∧ a.toNat = r.val ∧ t.fault = none ∧ t.out = s.out ++ [s.x.get r])

/-- The output is never read back: a step from a state with more output before it is the same step, with that output before its own (R31). -/
def Obligations.OutputIsNeverReadBack : Prop :=
  ∀ (m : OpcodeMap) (s t : State) (earlier : List Byte), stepWith m s = .next t →
    stepWith m { s with out := earlier ++ s.out } = .next { t with out := earlier ++ t.out }

/-- The running flag is cleared exactly by HLT and set by nothing (R28). -/
def Obligations.RunningFlagIsClearedExactlyByHlt : Prop :=
  ∀ (i : Instr) (s t : State), exec i s = .next t →
    (t.running = if i = .hlt then false else s.running)

/-! ### Memory, the stack and control flow -/

/-- The memory's contract: an address above 255 fails with `OutOfBounds` both ways, never wrapping; a write below 256 is read back, leaves every other cell alone, and keeps the canonical form (R36, R44). -/
def Obligations.MemoryContractHolds : Prop :=
  (∀ (a : Nat) (v : Byte) (s : State), 256 ≤ a →
    memRead a s = .error .outOfBounds ∧ memWrite a v s = .error .outOfBounds) ∧
  (∀ (a : Nat) (v : Byte) (s : State), a < 256 → Memory.wf s.mem = true →
    ∃ t, memWrite a v s = .ok t ∧ memRead a t = .ok v ∧ (∀ b, b ≠ a → memRead b t = memRead b s) ∧
      Memory.wf t.mem = true ∧ t = { s with mem := t.mem })

/-- Two canonical memories that read alike in all 256 cells are the same data. -/
def Obligations.CanonicalMemoriesThatReadAlikeAreEqual : Prop :=
  ∀ m n : Memory, Memory.wf m = true → Memory.wf n = true →
    (∀ a, a < 256 → Memory.read m a = Memory.read n a) → m = n

/-- The push-pop law: PUSH then, at the next address, POP, neither overwritten by the push, gives the second register the first one's value and restores sp (R89). -/
def Obligations.PushThenPopMovesTheRegister : Prop :=
  ∀ (m : OpcodeMap) (s : State) (ra rb : Fin 8), m.Distinct → s.status = .running → Memory.wf s.mem = true →
    s.pc.toNat ≤ 252 → 1 ≤ s.sp.toNat →
    Memory.read s.mem s.pc.toNat = m.push → (s.operandByte 1).toNat = ra.val →
    s.operandByte 2 = m.pop → (s.operandByte 3).toNat = rb.val →
    s.sp.toNat - 1 ≠ s.pc.toNat + 2 → s.sp.toNat - 1 ≠ s.pc.toNat + 3 →
    ∃ t u, stepWith m s = .next t ∧ stepWith m t = .next u ∧ u.x.get rb = s.x.get ra ∧
      (∀ q, q ≠ rb → u.x.get q = s.x.get q) ∧ u.sp = s.sp ∧ u.pc.toNat = s.pc.toNat + 4 ∧
      u = { s with mem := u.mem, x := u.x, pc := u.pc }

/-- The call-return law: a CALL that completes, and later a RET at the stack pointer it left with its cell not overwritten, bring pc to the CALL's address + 2 and sp to its value before the CALL (R93). -/
def Obligations.RetAfterCallReturnsBehindTheCall : Prop :=
  ∀ (s t u : State) (a : Byte), s.fault = none → Memory.wf s.mem = true → s.pc.toNat ≤ 253 →
    exec (.call a) s = .next t → t.fault = none →
    u.sp = t.sp → Memory.read u.mem t.sp.toNat = Memory.read t.mem t.sp.toNat →
    ∃ v, exec .ret u = .next v ∧ v.pc.toNat = s.pc.toNat + 2 ∧ v.sp = s.sp

/-- Fetch sees what PUSH and CALL wrote: a completed one leaves its byte in the cell at the new sp, and any later engine with that memory whose pc is there fetches it as its opcode (R47, R123). -/
def Obligations.PushedByteIsFetchedAsAnOpcode : Prop :=
  ∀ (i : Instr) (s t u : State), (∃ a, i = .push a ∨ i = .call a) → s.fault = none → Memory.wf s.mem = true →
    exec i s = .next t → t.fault = none → u.mem = t.mem → u.pc.toNat = t.sp.toNat →
    ∃ v, memRead t.sp.toNat t = .ok v ∧ (fetchBytes u).head? = some v ∧
      (∀ a, i = .call a → v = BitVec.ofNat 8 (s.pc.toNat + 2)) ∧
      (∀ (a : Byte) (r : Fin 8), i = .push a → a.toNat = r.val → v = s.x.get r)

/-! ### Reset and the host operations -/

/-- Reset: every cell 0, pc 0, sp 255, running, no fault, no output, and the registers at their reset values, whatever those are; the entry point is address 0, whatever memory a load then leaves (R34). -/
def Obligations.ResetLeavesTheStatedValues : Prop :=
  ∀ regs : RegFile, (∀ a, Memory.read (State.resetWith regs).mem a = 0#8) ∧ (State.resetWith regs).x = regs ∧
    (State.resetWith regs).pc.toNat = 0 ∧ (State.resetWith regs).sp.toNat = 255 ∧
    (State.resetWith regs).running = true ∧ (State.resetWith regs).fault = none ∧
    (State.resetWith regs).out = [] ∧
    (∀ mem : Memory, (fetchBytes { State.resetWith regs with mem := mem }).head? = some (Memory.read mem 0))

/-- `load` of at most 256 bytes puts byte i at address i and changes nothing else: no other cell, register, pc, sp, flag, latch or output (R49, R50). That it writes nothing more is the spec's own reading (D12, log 10). -/
def Obligations.LoadWritesExactlyTheProgram : Prop :=
  ∀ (program : List Byte) (s : State), program.length ≤ 256 → Memory.wf s.mem = true →
    ∃ t, load program s = .ok t ∧ (∀ i (h : i < program.length), Memory.read t.mem i = program[i]) ∧
      (∀ a, program.length ≤ a → Memory.read t.mem a = Memory.read s.mem a) ∧ Memory.wf t.mem = true ∧
      t = { s with mem := t.mem }

/-- `load` of more than 256 bytes fails with `ProgramTooLarge`: the host is told, the machine stays as it was, the latch is not set (R51, R107). That nothing is written is the spec's own choice (D12, log 10). -/
def Obligations.LoadBeyondMemoryFailsAndWritesNothing : Prop :=
  (∀ (program : List Byte) (s : State), 256 < program.length → load program s = .error .programTooLarge) ∧
  (∀ (program : List Byte) (h : Session), 256 < program.length → h.phase ≠ .runBegan →
    hostLoad program h = .next ({ machine := h.machine, phase := .loadFailed }, some .programTooLarge))

/-- Host operations out of the order new, load..., run are refused: a load once the run began, a second run, a run after a failed load (R121; the spec's own choice D12, log 11). -/
def Obligations.HostOperationsOutOfOrderAreRefused : Prop :=
  (∀ (program : List Byte) (h : Session), h.phase = .runBegan → hostLoad program h = .refused .loadAfterRunBegan) ∧
  (∀ (fuel : Nat) (h : Session), h.phase = .runBegan → hostRun fuel h = .refused .secondRun) ∧
  (∀ (fuel : Nat) (h : Session), h.phase = .loadFailed → hostRun fuel h = .refused .runAfterFailedLoad) ∧
  (∀ (fuel : Nat) (h : Session), h.phase = .ready → ∃ h' st, hostRun fuel h = .next (h', st) ∧ h'.phase = .runBegan ∧
    h'.machine = runWith defaultOpcodes fuel h.machine ∧ st = h'.machine.status)

/-- The run repeats the step while the status is Running: no steps of it leave the state as it is, and where the step answers a next state the run of one step more goes on from that state. A run taken further in two parts is the run taken further at once, and a run that has stopped, Halted or Faulted, stays as it is however much further it is taken (R73, R74). The bound on the steps is the model's (log 14). -/
def Obligations.StoppedRunStaysAsItIs : Prop :=
  (∀ (m : OpcodeMap) (s : State), runWith m 0 s = s) ∧
  (∀ (m : OpcodeMap) (k : Nat) (s t : State), stepWith m s = .next t → runWith m (k + 1) s = runWith m k t) ∧
  (∀ (m : OpcodeMap) (j k : Nat) (s : State),
    runWith m (j + k) s = runWith m k (runWith m j s) ∧
    ((runWith m j s).status ≠ .running → runWith m (j + k) s = runWith m j s))

/-- The one run of a machine, taken for `j` steps and then further for `k`, is the run of `j + k` steps: the host is handed the same machine and the same status (R73, R74; the bound is the model's, log 14). -/
def Obligations.RunTakenFurtherIsTheLongerRun : Prop :=
  ∀ (j k : Nat) (h : Session), h.phase = .ready →
    ∃ h' st h'' st', hostRun j h = .next (h', st) ∧ hostContinue k h' = .next (h'', st') ∧
      hostRun (j + k) h = .next (h'', st')

/-- A fault once latched is never cleared by the run: if no fault stands after `j + k` steps, none stood after `j` (R29, R105). -/
def Obligations.LatchedFaultIsNeverCleared : Prop :=
  ∀ (m : OpcodeMap) (j k : Nat) (s : State), safeRun m (j + k) s → safeRun m j s

/-- The fault numbers are those of the table: none is 0 and the seven faults are 1 to 7 in the order of the taxonomy; so they are distinct (R99; the spec's own numbering D7, log 17). -/
def Obligations.FaultNumbersAreDistinct : Prop :=
  faultNumber none = 0 ∧
  faultNumber (some .outOfBounds) = 1 ∧
  faultNumber (some .invalidRegister) = 2 ∧
  faultNumber (some .invalidOpcode) = 3 ∧
  faultNumber (some .unsupportedOperation) = 4 ∧
  faultNumber (some .stackOverflow) = 5 ∧
  faultNumber (some .stackUnderflow) = 6 ∧
  faultNumber (some .programTooLarge) = 7 ∧
  (∀ f g : Option FaultCode, faultNumber f = faultNumber g → f = g)
end

