-- ==== Sys2Proof/Laws/Decode.lean ====
section
/-! SUPPORT. The Dispatch Table's lookup, the operand layout and the encoder, one lemma each. -/

namespace Sys2Proof

/-- What the lookup can answer: an opcode whose byte is the one looked up, or nothing for a byte outside the set. -/
theorem lookupOpcode_byte {m : OpcodeMap} {b : Byte} {o : Opcode} (h : lookupOpcode m b = some o) : m.byte o = b := by
  unfold lookupOpcode at h
  split_ifs at h <;> cases h <;> simp_all [OpcodeMap.byte]

/-- The lookup fails exactly on the bytes outside the opcode set. -/
theorem lookupOpcode_eq_none (m : OpcodeMap) (b : Byte) : lookupOpcode m b = none ↔ b ∉ m.toList := by
  unfold lookupOpcode OpcodeMap.toList
  split_ifs <;> simp_all

/-- Under distinct opcode bytes the lookup of an opcode's byte finds that opcode. -/
theorem lookupOpcode_of_byte {m : OpcodeMap} (hm : m.Distinct) (o : Opcode) : lookupOpcode m (m.byte o) = some o := by
  simp only [OpcodeMap.Distinct, OpcodeMap.toList, List.nodup_cons, List.mem_cons, List.not_mem_nil, or_false, not_or] at hm
  obtain ⟨h1, h2, h3, h4, h5, h6, h7, h8, -⟩ := hm
  cases o <;> simp only [lookupOpcode, OpcodeMap.byte] <;> split_ifs <;> simp_all

/-- A decode of one byte or more looks the first byte up. -/
theorem decodeWith_cons (m : OpcodeMap) (op : Byte) (rest : List Byte) {o : Opcode} (h : lookupOpcode m op = some o) :
    decodeWith m (op :: rest) = decodeOperands o rest := by
  simp [decodeWith, h]

/-- A decode whose first byte is outside the set fails at once. -/
theorem decodeWith_invalid (m : OpcodeMap) (op : Byte) (rest : List Byte) (h : lookupOpcode m op = none) :
    decodeWith m (op :: rest) = .error (.invalidOpcode op) := by
  simp [decodeWith, h]

/-- What a successful operand decode says: the operands stand at the head of the bytes. -/
theorem decodeOperands_ok {o : Opcode} {bytes rest : List Byte} {i : Instr}
    (h : decodeOperands o bytes = .ok (i, rest)) : i.opcode = o ∧ i.operands ++ rest = bytes := by
  cases o <;> (rcases bytes with _ | ⟨a, _ | ⟨b, bs⟩⟩) <;>
    simp [decodeOperands, oneOperand, twoOperands] at h <;> obtain ⟨rfl, rfl⟩ := h <;> exact ⟨rfl, rfl⟩

/-- The operand bytes of an instruction decode back to it. -/
theorem decodeOperands_operands (i : Instr) (rest : List Byte) :
    decodeOperands i.opcode (i.operands ++ rest) = .ok (i, rest) := by
  cases i <;> rfl

/-- An instruction has as many operand bytes as its opcode's format says. -/
theorem Instr.length_operands (i : Instr) : i.operands.length = operandCount i.opcode := by
  cases i <;> rfl

/-- The encoded length is the length of R54. -/
theorem encodeWith_length (m : OpcodeMap) (i : Instr) : (encodeWith m i).length = instrLength i := by
  simp [encodeWith, instrLength, Instr.length_operands, Nat.add_comm]

/-- No instruction is longer than three bytes. -/
theorem instrLength_le (i : Instr) : 1 ≤ instrLength i ∧ instrLength i ≤ 3 := by
  cases i <;> simp [instrLength, operandCount, Instr.opcode]

/-- The default opcode bytes are distinct. -/
theorem defaultOpcodes_distinct : defaultOpcodes.Distinct := by decide

end Sys2Proof
end

