-- ==== Sys2Proof/Laws/State.lean ====
section
/-! SUPPORT. One lemma per field of State per update, so that no proof unfolds a record update, and the register file's read-after-write law. -/

namespace Sys2Proof.Machine

@[simp] theorem State.setReg_mem (s : State) (i : Fin 8) (v : Byte) : (s.setReg i v).mem = s.mem := rfl
@[simp] theorem State.setReg_x (s : State) (i : Fin 8) (v : Byte) : (s.setReg i v).x = s.x.set i v := rfl
@[simp] theorem State.setReg_pc (s : State) (i : Fin 8) (v : Byte) : (s.setReg i v).pc = s.pc := rfl
@[simp] theorem State.setReg_sp (s : State) (i : Fin 8) (v : Byte) : (s.setReg i v).sp = s.sp := rfl
@[simp] theorem State.setReg_running (s : State) (i : Fin 8) (v : Byte) : (s.setReg i v).running = s.running := rfl
@[simp] theorem State.setReg_fault (s : State) (i : Fin 8) (v : Byte) : (s.setReg i v).fault = s.fault := rfl
@[simp] theorem State.setReg_out (s : State) (i : Fin 8) (v : Byte) : (s.setReg i v).out = s.out := rfl

@[simp] theorem State.setSp_mem (s : State) (t : Byte) : (s.setSp t).mem = s.mem := rfl
@[simp] theorem State.setSp_x (s : State) (t : Byte) : (s.setSp t).x = s.x := rfl
@[simp] theorem State.setSp_pc (s : State) (t : Byte) : (s.setSp t).pc = s.pc := rfl
@[simp] theorem State.setSp_sp (s : State) (t : Byte) : (s.setSp t).sp = t := rfl
@[simp] theorem State.setSp_running (s : State) (t : Byte) : (s.setSp t).running = s.running := rfl
@[simp] theorem State.setSp_fault (s : State) (t : Byte) : (s.setSp t).fault = s.fault := rfl
@[simp] theorem State.setSp_out (s : State) (t : Byte) : (s.setSp t).out = s.out := rfl

@[simp] theorem State.advance_mem (s : State) (n : Nat) : (s.advance n).mem = s.mem := rfl
@[simp] theorem State.advance_x (s : State) (n : Nat) : (s.advance n).x = s.x := rfl
@[simp] theorem State.advance_pc (s : State) (n : Nat) : (s.advance n).pc = BitVec.ofNat 9 (s.pc.toNat + n) := rfl
@[simp] theorem State.advance_sp (s : State) (n : Nat) : (s.advance n).sp = s.sp := rfl
@[simp] theorem State.advance_running (s : State) (n : Nat) : (s.advance n).running = s.running := rfl
@[simp] theorem State.advance_fault (s : State) (n : Nat) : (s.advance n).fault = s.fault := rfl
@[simp] theorem State.advance_out (s : State) (n : Nat) : (s.advance n).out = s.out := rfl

@[simp] theorem State.jump_mem (s : State) (v : Byte) : (s.jump v).mem = s.mem := rfl
@[simp] theorem State.jump_x (s : State) (v : Byte) : (s.jump v).x = s.x := rfl
@[simp] theorem State.jump_pc (s : State) (v : Byte) : (s.jump v).pc = v.setWidth 9 := rfl
@[simp] theorem State.jump_sp (s : State) (v : Byte) : (s.jump v).sp = s.sp := rfl
@[simp] theorem State.jump_running (s : State) (v : Byte) : (s.jump v).running = s.running := rfl
@[simp] theorem State.jump_fault (s : State) (v : Byte) : (s.jump v).fault = s.fault := rfl
@[simp] theorem State.jump_out (s : State) (v : Byte) : (s.jump v).out = s.out := rfl

@[simp] theorem State.emit_mem (s : State) (v : Byte) : (s.emit v).mem = s.mem := rfl
@[simp] theorem State.emit_x (s : State) (v : Byte) : (s.emit v).x = s.x := rfl
@[simp] theorem State.emit_pc (s : State) (v : Byte) : (s.emit v).pc = s.pc := rfl
@[simp] theorem State.emit_sp (s : State) (v : Byte) : (s.emit v).sp = s.sp := rfl
@[simp] theorem State.emit_running (s : State) (v : Byte) : (s.emit v).running = s.running := rfl
@[simp] theorem State.emit_fault (s : State) (v : Byte) : (s.emit v).fault = s.fault := rfl
@[simp] theorem State.emit_out (s : State) (v : Byte) : (s.emit v).out = s.out ++ [v] := rfl

@[simp] theorem State.latch_mem (s : State) (f : FaultCode) : (s.latch f).mem = s.mem := rfl
@[simp] theorem State.latch_x (s : State) (f : FaultCode) : (s.latch f).x = s.x := rfl
@[simp] theorem State.latch_pc (s : State) (f : FaultCode) : (s.latch f).pc = s.pc := rfl
@[simp] theorem State.latch_sp (s : State) (f : FaultCode) : (s.latch f).sp = s.sp := rfl
@[simp] theorem State.latch_running (s : State) (f : FaultCode) : (s.latch f).running = s.running := rfl
@[simp] theorem State.latch_fault (s : State) (f : FaultCode) : (s.latch f).fault = some f := rfl
@[simp] theorem State.latch_out (s : State) (f : FaultCode) : (s.latch f).out = s.out := rfl

@[simp] theorem State.clearRunning_mem (s : State) : s.clearRunning.mem = s.mem := rfl
@[simp] theorem State.clearRunning_x (s : State) : s.clearRunning.x = s.x := rfl
@[simp] theorem State.clearRunning_pc (s : State) : s.clearRunning.pc = s.pc := rfl
@[simp] theorem State.clearRunning_sp (s : State) : s.clearRunning.sp = s.sp := rfl
@[simp] theorem State.clearRunning_running (s : State) : s.clearRunning.running = false := rfl
@[simp] theorem State.clearRunning_fault (s : State) : s.clearRunning.fault = s.fault := rfl
@[simp] theorem State.clearRunning_out (s : State) : s.clearRunning.out = s.out := rfl

@[simp] theorem State.resetWith_mem (r : RegFile) : (State.resetWith r).mem = [] := rfl
@[simp] theorem State.resetWith_x (r : RegFile) : (State.resetWith r).x = r := rfl
@[simp] theorem State.resetWith_pc (r : RegFile) : (State.resetWith r).pc = 0#9 := rfl
@[simp] theorem State.resetWith_sp (r : RegFile) : (State.resetWith r).sp = 255#8 := rfl
@[simp] theorem State.resetWith_running (r : RegFile) : (State.resetWith r).running = true := rfl
@[simp] theorem State.resetWith_fault (r : RegFile) : (State.resetWith r).fault = none := rfl
@[simp] theorem State.resetWith_out (r : RegFile) : (State.resetWith r).out = [] := rfl

/-- The program counter after an advance that does not leave 9 bits. -/
theorem State.advance_pc_toNat (s : State) (n : Nat) (h : s.pc.toNat + n < 512) :
    (s.advance n).pc.toNat = s.pc.toNat + n := by
  simp only [State.advance_pc, BitVec.toNat_ofNat]
  omega

/-- A jump sets the program counter to the byte, unchanged in value. -/
@[simp] theorem State.jump_pc_toNat (s : State) (v : Byte) : (s.jump v).pc.toNat = v.toNat := by
  have := v.isLt
  simp only [State.jump_pc, BitVec.toNat_setWidth]
  omega

/-- Reading a register after a write of one. -/
theorem RegFile.get_set (rf : RegFile) (i j : Fin 8) (v : Byte) :
    (rf.set i v).get j = if j = i then v else rf.get j := by
  fin_cases i <;> fin_cases j <;> rfl

@[simp] theorem RegFile.get_set_same (rf : RegFile) (i : Fin 8) (v : Byte) : (rf.set i v).get i = v := by
  simp [RegFile.get_set]

theorem RegFile.get_set_other (rf : RegFile) {i j : Fin 8} (v : Byte) (h : j ≠ i) :
    (rf.set i v).get j = rf.get j := by
  simp [RegFile.get_set, h]

@[simp] theorem State.reg_eq (s : State) (i : Fin 8) : s.reg i = s.x.get i := rfl

/-- The status is Running exactly when the flag is set and the latch is empty. -/
theorem State.status_eq_running (s : State) : s.status = .running ↔ s.running = true ∧ s.fault = none := by
  unfold State.status
  cases s.fault <;> cases s.running <;> simp

/-- The status is Halted exactly when the flag is cleared and the latch is empty. -/
theorem State.status_eq_halted (s : State) : s.status = .halted ↔ s.running = false ∧ s.fault = none := by
  unfold State.status
  cases s.fault <;> cases s.running <;> simp

/-- The status is Faulted exactly when the latch holds the fault. -/
theorem State.status_eq_faulted (s : State) (f : FaultCode) : s.status = .faulted f ↔ s.fault = some f := by
  unfold State.status
  cases s.fault <;> cases s.running <;> simp

end Sys2Proof.Machine
end

