-- ==== Sys2Proof/Laws/Memory.lean ====
section
/-! SUPPORT. Memory: reads and writes, the canonical form kept by every operation, and equal memories as equal data. -/

namespace Sys2Proof.Machine

theorem Memory.wfFrom_cons (low k : Nat) (v : Byte) (rest : Memory) :
    Memory.wfFrom low ((k, v) :: rest) = true ↔
      low ≤ k ∧ k < 256 ∧ v ≠ 0#8 ∧ Memory.wfFrom (k + 1) rest = true := by
  simp only [Memory.wfFrom, Bool.and_eq_true, decide_eq_true_eq, and_assoc]
  exact Iff.rfl

theorem Memory.wfFrom_weaken {low low' : Nat} {m : Memory} (h : Memory.wfFrom low m = true) (hl : low' ≤ low) :
    Memory.wfFrom low' m = true := by
  cases m with
  | nil => rfl
  | cons c rest =>
    obtain ⟨k, v⟩ := c
    rw [Memory.wfFrom_cons] at h ⊢
    exact ⟨by omega, h.2⟩

@[simp] theorem Memory.read_nil (a : Nat) : Memory.read [] a = 0#8 := rfl

theorem Memory.read_cons (k : Nat) (v : Byte) (rest : Memory) (a : Nat) :
    Memory.read ((k, v) :: rest) a = if k = a then v else Memory.read rest a := rfl

/-- Below the bound of the canonical form every cell is unlisted. -/
theorem Memory.read_below {low a : Nat} {m : Memory} (h : Memory.wfFrom low m = true) (ha : a < low) :
    Memory.read m a = 0#8 := by
  induction m generalizing low with
  | nil => rfl
  | cons c rest ih =>
    obtain ⟨k, v⟩ := c
    rw [Memory.wfFrom_cons] at h
    rw [Memory.read_cons, if_neg (by omega), ih h.2.2.2 (by omega)]

/-- A canonical memory reads 0 outside the address space. -/
theorem Memory.read_outside {low a : Nat} {m : Memory} (h : Memory.wfFrom low m = true) (ha : 256 ≤ a) :
    Memory.read m a = 0#8 := by
  induction m generalizing low with
  | nil => rfl
  | cons c rest ih =>
    obtain ⟨k, v⟩ := c
    rw [Memory.wfFrom_cons] at h
    rw [Memory.read_cons, if_neg (by omega), ih h.2.2.2]

theorem Memory.write_cons (k : Nat) (w : Byte) (rest : Memory) (a : Nat) (v : Byte) :
    Memory.write ((k, w) :: rest) a v =
      if a < k then (if v = 0#8 then (k, w) :: rest else (a, v) :: (k, w) :: rest)
      else if a = k then (if v = 0#8 then rest else (a, v) :: rest)
      else (k, w) :: Memory.write rest a v := rfl

/-- A write leaves every other cell alone, in any memory. -/
theorem Memory.read_write_other (m : Memory) {a b : Nat} (v : Byte) (h : b ≠ a) :
    Memory.read (Memory.write m a v) b = Memory.read m b := by
  induction m with
  | nil =>
    unfold Memory.write
    split
    · rfl
    · rw [Memory.read_cons, if_neg (Ne.symm h)]
  | cons c rest ih =>
    obtain ⟨k, w⟩ := c
    rw [Memory.write_cons]
    split
    · split
      · rfl
      · rw [Memory.read_cons, if_neg (Ne.symm h)]
    · split
      · have hk : k ≠ b := by omega
        split
        · rw [Memory.read_cons, if_neg hk]
        · rw [Memory.read_cons, if_neg (Ne.symm h), Memory.read_cons, if_neg hk]
      · rw [Memory.read_cons, Memory.read_cons, ih]

theorem Memory.read_write_same_from {low : Nat} {m : Memory} (h : Memory.wfFrom low m = true) (a : Nat) (v : Byte) :
    Memory.read (Memory.write m a v) a = v := by
  induction m generalizing low with
  | nil =>
    unfold Memory.write Memory.unlisted
    split
    · simp_all
    · simp [Memory.read_cons]
  | cons c rest ih =>
    obtain ⟨k, w⟩ := c
    have hc := (Memory.wfFrom_cons low k w rest).mp h
    rw [Memory.write_cons]
    split
    · split
      · rename_i hlt hv
        rw [hv]
        exact Memory.read_below (Memory.wfFrom_weaken ((Memory.wfFrom_cons k k w rest).mpr ⟨le_refl k, hc.2⟩) (le_refl k)) hlt
      · simp [Memory.read_cons]
    · split
      · split
        · rename_i hk hv
          rw [hv]
          exact Memory.read_below hc.2.2.2 (by omega)
        · simp [Memory.read_cons]
      · rw [Memory.read_cons, if_neg (by omega), ih hc.2.2.2]

/-- A read of the cell just written gives the value written. -/
theorem Memory.read_write_same {m : Memory} (h : Memory.wf m = true) (a : Nat) (v : Byte) :
    Memory.read (Memory.write m a v) a = v := Memory.read_write_same_from h a v

theorem Memory.wfFrom_write {low : Nat} {m : Memory} (h : Memory.wfFrom low m = true) {a : Nat} (v : Byte)
    (hl : low ≤ a) (ha : a < 256) : Memory.wfFrom low (Memory.write m a v) = true := by
  induction m generalizing low with
  | nil =>
    unfold Memory.write
    split
    · rfl
    · rename_i hv
      exact (Memory.wfFrom_cons low a v []).mpr ⟨hl, ha, hv, rfl⟩
  | cons c rest ih =>
    obtain ⟨k, w⟩ := c
    have hc := (Memory.wfFrom_cons low k w rest).mp h
    rw [Memory.write_cons]
    split
    · split
      · exact h
      · exact (Memory.wfFrom_cons _ _ _ _).mpr ⟨hl, ha, ‹_›, (Memory.wfFrom_cons _ _ _ _).mpr ⟨by omega, hc.2⟩⟩
    · split
      · split
        · exact Memory.wfFrom_weaken hc.2.2.2 (by omega)
        · exact (Memory.wfFrom_cons _ _ _ _).mpr ⟨hl, ha, ‹_›, Memory.wfFrom_weaken hc.2.2.2 (by omega)⟩
      · exact (Memory.wfFrom_cons _ _ _ _).mpr ⟨hc.1, hc.2.1, hc.2.2.1, ih hc.2.2.2 (by omega)⟩

/-- A write inside the address space keeps the canonical form. -/
theorem Memory.wf_write {m : Memory} (h : Memory.wf m = true) {a : Nat} (ha : a < 256) (v : Byte) :
    Memory.wf (Memory.write m a v) = true := Memory.wfFrom_write h v (Nat.zero_le a) ha

/-- Storing bytes that end inside the address space keeps the canonical form. -/
theorem Memory.wf_store {m : Memory} (h : Memory.wf m = true) (base : Nat) (bytes : List Byte)
    (hb : base + bytes.length ≤ 256) : Memory.wf (Memory.store m base bytes) = true := by
  induction bytes generalizing m base with
  | nil => exact h
  | cons b rest ih =>
    rw [List.length_cons] at hb
    exact ih (Memory.wf_write h (by omega) b) (base + 1) (by omega)

/-- Storing bytes leaves every cell below them and above them alone, in any memory. -/
theorem Memory.read_store_other (m : Memory) (base : Nat) (bytes : List Byte) {a : Nat}
    (h : a < base ∨ base + bytes.length ≤ a) : Memory.read (Memory.store m base bytes) a = Memory.read m a := by
  induction bytes generalizing m base with
  | nil => rfl
  | cons b rest ih =>
    rw [List.length_cons] at h
    rw [Memory.store, ih _ _ (by omega), Memory.read_write_other _ _ (by omega)]

/-- The length of a block read. -/
@[simp] theorem Memory.length_readBytes (m : Memory) (a n : Nat) : (Memory.readBytes m a n).length = n := by
  induction n generalizing a with
  | zero => rfl
  | succ n ih => simp [Memory.readBytes, ih]

/-- The first entry of a canonical memory is read back, and is not what an unlisted cell reads as. -/
theorem Memory.wfFrom_head_read {low k : Nat} {v : Byte} {rest : Memory}
    (h : Memory.wfFrom low ((k, v) :: rest) = true) : Memory.read ((k, v) :: rest) k = v ∧ v ≠ 0#8 := by
  rw [Memory.wfFrom_cons] at h
  exact ⟨by simp [Memory.read_cons], h.2.2.1⟩

/-- A shorter block read is the beginning of a longer one. -/
theorem Memory.readBytes_prefix (m : Memory) (a : Nat) {n k : Nat} (h : n ≤ k) :
    ∃ rest, Memory.readBytes m a k = Memory.readBytes m a n ++ rest := by
  induction n generalizing a k with
  | zero => exact ⟨_, rfl⟩
  | succ n ih =>
    obtain ⟨k, rfl⟩ : ∃ k', k = k' + 1 := ⟨k - 1, by omega⟩
    obtain ⟨rest, hr⟩ := ih (a + 1) (k := k) (by omega)
    exact ⟨rest, by simp [Memory.readBytes, hr]⟩

/-- Stored bytes are read back, each at its address. -/
theorem Memory.read_store_same {m : Memory} (hm : Memory.wf m = true) (base : Nat) (bytes : List Byte)
    (h : base + bytes.length ≤ 256) (i : Nat) (hi : i < bytes.length) :
    Memory.read (Memory.store m base bytes) (base + i) = bytes[i] := by
  induction bytes generalizing m base i with
  | nil => cases hi
  | cons b rest ih =>
    rw [List.length_cons] at h hi
    rw [Memory.store]
    cases i with
    | zero =>
      rw [Memory.read_store_other _ _ _ (.inl (by omega))]
      exact Memory.read_write_same hm base b
    | succ i =>
      rw [show base + (i + 1) = base + 1 + i by omega,
        ih (Memory.wf_write hm (by omega) b) (base + 1) (by omega) i (by omega)]
      rfl

theorem Memory.wf_reset : Memory.wf ([] : Memory) = true := rfl

end Sys2Proof.Machine
end

