-- ==== Sys2Proof/Laws/Meanings.lean ====
section
/-! SUPPORT. One lemma for each shared operation, and, once, everything the execution of an instruction can do (`exec_outcome`). -/

namespace Sys2Proof.Machine

@[simp] theorem commit_ok (s t : State) : commit s (.ok t) = .next t := rfl

@[simp] theorem commit_error (s : State) (f : FaultCode) : commit s (.error f) = .next (s.latch f) := rfl

theorem regOperand_ok {a : Byte} (h : a.toNat < 8) : regOperand a = .ok ⟨a.toNat, h⟩ := by
  simp [regOperand, Config.nRegs, h]

theorem regOperand_error {a : Byte} (h : ¬ a.toNat < 8) : regOperand a = .error .invalidRegister := by
  simp [regOperand, Config.nRegs, h]

theorem pushedSp_ok {s : State} (h : s.sp.toNat ≠ 0) : pushedSp s = .ok (s.sp - 1#8) := if_neg h

theorem pushedSp_error {s : State} (h : s.sp.toNat = 0) : pushedSp s = .error .stackOverflow := if_pos h

theorem poppedSp_ok {s : State} (h : s.sp.toNat ≠ 255) : poppedSp s = .ok (s.sp + 1#8) := if_neg h

theorem poppedSp_error {s : State} (h : s.sp.toNat = 255) : poppedSp s = .error .stackUnderflow := if_pos h

theorem returnAddress_ok {s : State} (h : s.pc.toNat + 2 < 256) :
    returnAddress s = .ok (BitVec.ofNat 8 (s.pc.toNat + 2)) := if_pos h

theorem returnAddress_error {s : State} (h : ¬ s.pc.toNat + 2 < 256) : returnAddress s = .error .outOfBounds := if_neg h

theorem memRead_ok {s : State} {a : Nat} (h : a < 256) : memRead a s = .ok (Memory.read s.mem a) := if_pos h

theorem memRead_error {s : State} {a : Nat} (h : ¬ a < 256) : memRead a s = .error .outOfBounds := if_neg h

theorem memWrite_ok {s : State} {a : Nat} (v : Byte) (h : a < 256) :
    memWrite a v s = .ok { s with mem := Memory.write s.mem a v } := if_pos h

theorem memWrite_error {s : State} {a : Nat} (v : Byte) (h : ¬ a < 256) : memWrite a v s = .error .outOfBounds := if_neg h

/-- The decremented stack pointer does not wrap. -/
theorem sp_sub_one_toNat {sp : Byte} (h : sp.toNat ≠ 0) : (sp - 1#8).toNat = sp.toNat - 1 := by
  have := sp.isLt
  rw [BitVec.toNat_sub]
  simp
  omega

/-- The incremented stack pointer does not wrap. -/
theorem sp_add_one_toNat {sp : Byte} (h : sp.toNat ≠ 255) : (sp + 1#8).toNat = sp.toNat + 1 := by
  have := sp.isLt
  rw [BitVec.toNat_add]
  simp
  omega

/-- The state after a byte was pushed: the cell below the top holds it, and the stack pointer names that cell. -/
def State.pushed (s : State) (v : Byte) : State :=
  { s with mem := Memory.write s.mem (s.sp.toNat - 1) v, sp := s.sp - 1#8 }

@[simp] theorem State.pushed_mem (s : State) (v : Byte) : (s.pushed v).mem = Memory.write s.mem (s.sp.toNat - 1) v := rfl
@[simp] theorem State.pushed_x (s : State) (v : Byte) : (s.pushed v).x = s.x := rfl
@[simp] theorem State.pushed_pc (s : State) (v : Byte) : (s.pushed v).pc = s.pc := rfl
@[simp] theorem State.pushed_sp (s : State) (v : Byte) : (s.pushed v).sp = s.sp - 1#8 := rfl
@[simp] theorem State.pushed_running (s : State) (v : Byte) : (s.pushed v).running = s.running := rfl
@[simp] theorem State.pushed_fault (s : State) (v : Byte) : (s.pushed v).fault = s.fault := rfl
@[simp] theorem State.pushed_out (s : State) (v : Byte) : (s.pushed v).out = s.out := rfl

theorem pushByte_ok (v : Byte) {s : State} (h : s.sp.toNat ≠ 0) : pushByte v s = .ok (s.pushed v) := by
  have hlt : s.sp.toNat - 1 < 256 := by have := s.sp.isLt; omega
  simp [pushByte, pushedSp_ok h, memWrite_ok v hlt, bind, Except.bind, State.pushed, State.setSp, sp_sub_one_toNat h]

theorem pushByte_error (v : Byte) {s : State} (h : s.sp.toNat = 0) : pushByte v s = .error .stackOverflow := by
  simp [pushByte, pushedSp_error h, bind, Except.bind]

theorem popByte_ok {s : State} (h : s.sp.toNat ≠ 255) :
    popByte s = .ok (Memory.read s.mem s.sp.toNat, s.setSp (s.sp + 1#8)) := by
  have hlt : s.sp.toNat < 256 := s.sp.isLt
  simp [popByte, poppedSp_ok h, memRead_ok hlt, bind, Except.bind]

theorem popByte_error {s : State} (h : s.sp.toNat = 255) : popByte s = .error .stackUnderflow := by
  simp [popByte, poppedSp_error h, bind, Except.bind]

theorem aluApply_add {a b : Byte} {s : State} (ha : a.toNat < 8) (hb : b.toNat < 8) :
    aluApply .add a b s = .ok (s.setReg ⟨a.toNat, ha⟩ (s.x.get ⟨a.toNat, ha⟩ + s.x.get ⟨b.toNat, hb⟩)) := by
  simp [aluApply, regOperand_ok ha, regOperand_ok hb, aluResult, bind, Except.bind]

theorem aluApply_mul {a b : Byte} {s : State} (ha : a.toNat < 8) (hb : b.toNat < 8) :
    aluApply .mul a b s = .ok (s.setReg ⟨a.toNat, ha⟩ (s.x.get ⟨a.toNat, ha⟩ * s.x.get ⟨b.toNat, hb⟩)) := by
  simp [aluApply, regOperand_ok ha, regOperand_ok hb, aluResult, bind, Except.bind]

theorem aluApply_badRegister {sel : AluSelect} (hs : sel = .add ∨ sel = .mul) {a b : Byte} (s : State)
    (h : ¬ (a.toNat < 8 ∧ b.toNat < 8)) : aluApply sel a b s = .error .invalidRegister := by
  by_cases ha : a.toNat < 8
  · have hb : ¬ b.toNat < 8 := fun hb => h ⟨ha, hb⟩
    obtain rfl | rfl := hs <;> simp [aluApply, regOperand_ok ha, regOperand_error hb, bind, Except.bind]
  · obtain rfl | rfl := hs <;> simp [aluApply, regOperand_error ha, bind, Except.bind]

/-- The completed executions: for each instruction the operands and states on which it completes, and the state it leaves. -/
inductive Effect : Instr → State → State → Prop where
  | ldi (a imm : Byte) (s : State) (ha : a.toNat < 8) :
      Effect (.ldi a imm) s ((s.setReg ⟨a.toNat, ha⟩ imm).advance 3)
  | prn (a : Byte) (s : State) (ha : a.toNat < 8) :
      Effect (.prn a) s ((s.emit (s.x.get ⟨a.toNat, ha⟩)).advance 2)
  | add (a b : Byte) (s : State) (ha : a.toNat < 8) (hb : b.toNat < 8) :
      Effect (.add a b) s ((s.setReg ⟨a.toNat, ha⟩ (s.x.get ⟨a.toNat, ha⟩ + s.x.get ⟨b.toNat, hb⟩)).advance 3)
  | mul (a b : Byte) (s : State) (ha : a.toNat < 8) (hb : b.toNat < 8) :
      Effect (.mul a b) s ((s.setReg ⟨a.toNat, ha⟩ (s.x.get ⟨a.toNat, ha⟩ * s.x.get ⟨b.toNat, hb⟩)).advance 3)
  | push (a : Byte) (s : State) (ha : a.toNat < 8) (hsp : s.sp.toNat ≠ 0) :
      Effect (.push a) s ((s.pushed (s.x.get ⟨a.toNat, ha⟩)).advance 2)
  | pop (a : Byte) (s : State) (ha : a.toNat < 8) (hsp : s.sp.toNat ≠ 255) :
      Effect (.pop a) s (((s.setSp (s.sp + 1#8)).setReg ⟨a.toNat, ha⟩ (Memory.read s.mem s.sp.toNat)).advance 2)
  | call (a : Byte) (s : State) (ha : a.toNat < 8) (hsp : s.sp.toNat ≠ 0) (hpc : s.pc.toNat + 2 < 256) :
      Effect (.call a) s ((s.pushed (BitVec.ofNat 8 (s.pc.toNat + 2))).jump (s.x.get ⟨a.toNat, ha⟩))
  | ret (s : State) (hsp : s.sp.toNat ≠ 255) :
      Effect .ret s ((s.setSp (s.sp + 1#8)).jump (Memory.read s.mem s.sp.toNat))
  | hlt (s : State) : Effect .hlt s (s.clearRunning.advance 1)

theorem exec_ldi_ok {a : Byte} (imm : Byte) {s : State} (ha : a.toNat < 8) :
    exec (.ldi a imm) s = .next ((s.setReg ⟨a.toNat, ha⟩ imm).advance 3) := by
  simp [exec, execLdi, regOperand_ok ha, bind, Except.bind]

theorem exec_prn_ok {a : Byte} {s : State} (ha : a.toNat < 8) :
    exec (.prn a) s = .next ((s.emit (s.x.get ⟨a.toNat, ha⟩)).advance 2) := by
  simp [exec, execPrn, regOperand_ok ha, bind, Except.bind]

theorem exec_add_ok {a b : Byte} {s : State} (ha : a.toNat < 8) (hb : b.toNat < 8) :
    exec (.add a b) s =
      .next ((s.setReg ⟨a.toNat, ha⟩ (s.x.get ⟨a.toNat, ha⟩ + s.x.get ⟨b.toNat, hb⟩)).advance 3) := by
  simp [exec, execAdd, aluApply_add ha hb, bind, Except.bind]

theorem exec_mul_ok {a b : Byte} {s : State} (ha : a.toNat < 8) (hb : b.toNat < 8) :
    exec (.mul a b) s =
      .next ((s.setReg ⟨a.toNat, ha⟩ (s.x.get ⟨a.toNat, ha⟩ * s.x.get ⟨b.toNat, hb⟩)).advance 3) := by
  simp [exec, execMul, aluApply_mul ha hb, bind, Except.bind]

theorem exec_push_ok {a : Byte} {s : State} (ha : a.toNat < 8) (hsp : s.sp.toNat ≠ 0) :
    exec (.push a) s = .next ((s.pushed (s.x.get ⟨a.toNat, ha⟩)).advance 2) := by
  simp [exec, execPush, regOperand_ok ha, pushByte_ok _ hsp, bind, Except.bind]

theorem exec_push_overflow {a : Byte} {s : State} (ha : a.toNat < 8) (hsp : s.sp.toNat = 0) :
    exec (.push a) s = .next (s.latch .stackOverflow) := by
  simp [exec, execPush, regOperand_ok ha, pushByte_error _ hsp, bind, Except.bind]

theorem exec_pop_ok {a : Byte} {s : State} (ha : a.toNat < 8) (hsp : s.sp.toNat ≠ 255) :
    exec (.pop a) s =
      .next (((s.setSp (s.sp + 1#8)).setReg ⟨a.toNat, ha⟩ (Memory.read s.mem s.sp.toNat)).advance 2) := by
  simp [exec, execPop, regOperand_ok ha, popByte_ok hsp, bind, Except.bind]

theorem exec_pop_underflow {a : Byte} {s : State} (ha : a.toNat < 8) (hsp : s.sp.toNat = 255) :
    exec (.pop a) s = .next (s.latch .stackUnderflow) := by
  simp [exec, execPop, regOperand_ok ha, popByte_error hsp, bind, Except.bind]

theorem exec_call_ok {a : Byte} {s : State} (ha : a.toNat < 8) (hsp : s.sp.toNat ≠ 0) (hpc : s.pc.toNat + 2 < 256) :
    exec (.call a) s = .next ((s.pushed (BitVec.ofNat 8 (s.pc.toNat + 2))).jump (s.x.get ⟨a.toNat, ha⟩)) := by
  simp [exec, execCall, regOperand_ok ha, pushedSp_ok hsp, returnAddress_ok hpc, pushByte_ok _ hsp, bind, Except.bind]

theorem exec_call_overflow {a : Byte} {s : State} (ha : a.toNat < 8) (hsp : s.sp.toNat = 0) :
    exec (.call a) s = .next (s.latch .stackOverflow) := by
  simp [exec, execCall, regOperand_ok ha, pushedSp_error hsp, bind, Except.bind]

theorem exec_call_outOfBounds {a : Byte} {s : State} (ha : a.toNat < 8) (hsp : s.sp.toNat ≠ 0)
    (hpc : ¬ s.pc.toNat + 2 < 256) : exec (.call a) s = .next (s.latch .outOfBounds) := by
  simp [exec, execCall, regOperand_ok ha, pushedSp_ok hsp, returnAddress_error hpc, bind, Except.bind]

theorem exec_ret_ok {s : State} (hsp : s.sp.toNat ≠ 255) :
    exec .ret s = .next ((s.setSp (s.sp + 1#8)).jump (Memory.read s.mem s.sp.toNat)) := by
  simp [exec, execRet, popByte_ok hsp, bind, Except.bind]

theorem exec_ret_underflow {s : State} (hsp : s.sp.toNat = 255) : exec .ret s = .next (s.latch .stackUnderflow) := by
  simp [exec, execRet, popByte_error hsp, bind, Except.bind]

theorem exec_hlt_ok (s : State) : exec .hlt s = .next (s.clearRunning.advance 1) := rfl

/-- Everything the execution of an instruction can do: it completes with its effect, or it latches one of the four faults an execution can raise and changes nothing else. -/
theorem exec_outcome (i : Instr) (s : State) :
    (∃ t, exec i s = .next t ∧ Effect i s t) ∨
    (∃ f, exec i s = .next (s.latch f) ∧
      (f = .invalidRegister ∨ f = .stackOverflow ∨ f = .stackUnderflow ∨ f = .outOfBounds)) := by
  cases i with
  | ldi a imm =>
    by_cases ha : a.toNat < 8
    · exact .inl ⟨_, exec_ldi_ok imm ha, .ldi a imm s ha⟩
    · exact .inr ⟨_, by simp [exec, execLdi, regOperand_error ha, bind, Except.bind], .inl rfl⟩
  | prn a =>
    by_cases ha : a.toNat < 8
    · exact .inl ⟨_, exec_prn_ok ha, .prn a s ha⟩
    · exact .inr ⟨_, by simp [exec, execPrn, regOperand_error ha, bind, Except.bind], .inl rfl⟩
  | add a b =>
    by_cases h : a.toNat < 8 ∧ b.toNat < 8
    · exact .inl ⟨_, exec_add_ok h.1 h.2, .add a b s h.1 h.2⟩
    · exact .inr ⟨_, by simp [exec, execAdd, aluApply_badRegister (.inl rfl) s h, bind, Except.bind], .inl rfl⟩
  | mul a b =>
    by_cases h : a.toNat < 8 ∧ b.toNat < 8
    · exact .inl ⟨_, exec_mul_ok h.1 h.2, .mul a b s h.1 h.2⟩
    · exact .inr ⟨_, by simp [exec, execMul, aluApply_badRegister (.inr rfl) s h, bind, Except.bind], .inl rfl⟩
  | push a =>
    by_cases ha : a.toNat < 8
    · by_cases hsp : s.sp.toNat = 0
      · exact .inr ⟨_, exec_push_overflow ha hsp, .inr (.inl rfl)⟩
      · exact .inl ⟨_, exec_push_ok ha hsp, .push a s ha hsp⟩
    · exact .inr ⟨_, by simp [exec, execPush, regOperand_error ha, bind, Except.bind], .inl rfl⟩
  | pop a =>
    by_cases ha : a.toNat < 8
    · by_cases hsp : s.sp.toNat = 255
      · exact .inr ⟨_, exec_pop_underflow ha hsp, .inr (.inr (.inl rfl))⟩
      · exact .inl ⟨_, exec_pop_ok ha hsp, .pop a s ha hsp⟩
    · exact .inr ⟨_, by simp [exec, execPop, regOperand_error ha, bind, Except.bind], .inl rfl⟩
  | call a =>
    by_cases ha : a.toNat < 8
    · by_cases hsp : s.sp.toNat = 0
      · exact .inr ⟨_, exec_call_overflow ha hsp, .inr (.inl rfl)⟩
      · by_cases hpc : s.pc.toNat + 2 < 256
        · exact .inl ⟨_, exec_call_ok ha hsp hpc, .call a s ha hsp hpc⟩
        · exact .inr ⟨_, exec_call_outOfBounds ha hsp hpc, .inr (.inr (.inr rfl))⟩
    · exact .inr ⟨_, by simp [exec, execCall, regOperand_error ha, bind, Except.bind], .inl rfl⟩
  | ret =>
    by_cases hsp : s.sp.toNat = 255
    · exact .inr ⟨_, exec_ret_underflow hsp, .inr (.inr (.inl rfl))⟩
    · exact .inl ⟨_, exec_ret_ok hsp, .ret s hsp⟩
  | hlt => exact .inl ⟨_, exec_hlt_ok s, .hlt s⟩

/-- The execution of an instruction always answers a next state: a fault is one, with the latch written. -/
theorem exec_next (i : Instr) (s : State) : ∃ t, exec i s = .next t := by
  rcases exec_outcome i s with ⟨t, h, -⟩ | ⟨f, h, -⟩
  · exact ⟨t, h⟩
  · exact ⟨_, h⟩

/-- What a next state is: the effect, or the state before with a fault latched. -/
theorem exec_inv {i : Instr} {s t : State} (h : exec i s = .next t) : Effect i s t ∨ ∃ f, t = s.latch f := by
  rcases exec_outcome i s with ⟨u, hu, he⟩ | ⟨f, hu, -⟩
  · rw [h] at hu
    cases hu
    exact .inl he
  · rw [h] at hu
    cases hu
    exact .inr ⟨f, rfl⟩

end Sys2Proof.Machine
end

