-- ==== Sys2Proof/Laws/Engine.lean ====
section
/-! SUPPORT. Fetch and the step: what each answers, once. -/

namespace Sys2Proof.Machine

@[simp] theorem State.placeAtPc_x (s : State) (bytes : List Byte) : (s.placeAtPc bytes).x = s.x := rfl
@[simp] theorem State.placeAtPc_pc (s : State) (bytes : List Byte) : (s.placeAtPc bytes).pc = s.pc := rfl
@[simp] theorem State.placeAtPc_sp (s : State) (bytes : List Byte) : (s.placeAtPc bytes).sp = s.sp := rfl
@[simp] theorem State.placeAtPc_running (s : State) (bytes : List Byte) : (s.placeAtPc bytes).running = s.running := rfl
@[simp] theorem State.placeAtPc_fault (s : State) (bytes : List Byte) : (s.placeAtPc bytes).fault = s.fault := rfl
@[simp] theorem State.placeAtPc_out (s : State) (bytes : List Byte) : (s.placeAtPc bytes).out = s.out := rfl

/-- The fetch window inside the memory. -/
theorem fetchBytes_three {s : State} (h : s.pc.toNat ≤ 253) :
    fetchBytes s = [Memory.read s.mem s.pc.toNat, s.operandByte 1, s.operandByte 2] := by
  have : min Config.maxLength (Config.memCells - s.pc.toNat) = 3 := by simp [Config.maxLength, Config.memCells]; omega
  simp [fetchBytes, this, Memory.readBytes, State.operandByte]

theorem fetchBytes_two {s : State} (h : s.pc.toNat = 254) :
    fetchBytes s = [Memory.read s.mem 254, s.operandByte 1] := by
  simp [fetchBytes, h, Config.maxLength, Config.memCells, Memory.readBytes, State.operandByte]

theorem fetchBytes_one {s : State} (h : s.pc.toNat = 255) : fetchBytes s = [Memory.read s.mem 255] := by
  simp [fetchBytes, h, Config.maxLength, Config.memCells, Memory.readBytes]

theorem fetchBytes_none {s : State} (h : 256 ≤ s.pc.toNat) : fetchBytes s = [] := by
  have : Config.memCells - s.pc.toNat = 0 := by simp [Config.memCells]; omega
  simp [fetchBytes, this, Memory.readBytes]

/-- The window holds as many bytes as there are cells from `pc` on, at most three. -/
@[simp] theorem length_fetchBytes (s : State) : (fetchBytes s).length = min 3 (256 - s.pc.toNat) := by
  simp [fetchBytes, Config.maxLength, Config.memCells]

theorem stepWith_running {m : OpcodeMap} {s : State} (h : s.status = .running) : stepWith m s = cycleWith m s := by
  simp [stepWith, h]

/-- A step answers a next state exactly for a Running engine, and then it is the cycle's. -/
theorem stepWith_next {m : OpcodeMap} {s t : State} (h : stepWith m s = .next t) :
    s.status = .running ∧ cycleWith m s = .next t := by
  unfold stepWith at h
  split at h
  · exact ⟨‹_›, h⟩
  · cases h
  · cases h

/-- Everything a cycle can do: it executes the instruction at the head of the fetch window, or it latches one of the two faults of fetch and decode. -/
theorem cycleWith_outcome (m : OpcodeMap) (s : State) :
    (∃ i rest, decodeWith m (fetchBytes s) = .ok (i, rest) ∧ cycleWith m s = exec i s) ∨
    (∃ f, cycleWith m s = .next (s.latch f) ∧ (f = .outOfBounds ∨ f = .invalidOpcode)) := by
  unfold cycleWith
  cases h : decodeWith m (fetchBytes s) with
  | ok r => exact .inl ⟨r.1, r.2, rfl, rfl⟩
  | error e => cases e <;> refine .inr ⟨_, rfl, ?_⟩ <;> simp [decodeFault]

/-- A decoded instruction fits below the end of memory: its length is within the window. -/
theorem decodeWith_length {m : OpcodeMap} {bytes rest : List Byte} {i : Instr}
    (h : decodeWith m bytes = .ok (i, rest)) : instrLength i ≤ bytes.length := by
  cases bytes with
  | nil => cases h
  | cons op bs =>
    cases hl : lookupOpcode m op with
    | none => simp [decodeWith, hl] at h
    | some o =>
      rw [decodeWith_cons m op bs hl] at h
      obtain ⟨rfl, rfl⟩ := decodeOperands_ok h
      simp [instrLength, Instr.length_operands]
      omega

/-- An instruction the engine decodes ends at or below the end of memory. -/
theorem fetched_fits {m : OpcodeMap} {s : State} {i : Instr} {rest : List Byte}
    (h : decodeWith m (fetchBytes s) = .ok (i, rest)) : s.pc.toNat + instrLength i ≤ 256 := by
  have h1 := decodeWith_length h
  have h2 := instrLength_le i
  rw [length_fetchBytes] at h1
  omega

/-- One step of a run. -/
theorem runWith_next {m : OpcodeMap} {s t : State} (h : stepWith m s = .next t) (fuel : Nat) :
    runWith m (fuel + 1) s = runWith m fuel t := by
  rw [runWith, h]

/-- A cycle always answers a next state. -/
theorem cycleWith_next (m : OpcodeMap) (s : State) : ∃ t, cycleWith m s = .next t := by
  rcases cycleWith_outcome m s with ⟨i, rest, -, h⟩ | ⟨f, h, -⟩
  · rw [h]
    exact exec_next i s
  · exact ⟨_, h⟩

/-- Everything a step can do: the engine was Running, and either an instruction that fits below the end of memory had its effect, or a fault was latched. -/
theorem stepWith_inv {m : OpcodeMap} {s t : State} (h : stepWith m s = .next t) :
    s.running = true ∧ s.fault = none ∧
    ((∃ i, s.pc.toNat + instrLength i ≤ 256 ∧ exec i s = .next t ∧ Effect i s t) ∨
      ∃ f, t = s.latch f ∧ f ≠ .unsupportedOperation ∧ f ≠ .programTooLarge) := by
  obtain ⟨hs, hc⟩ := stepWith_next h
  obtain ⟨h1, h2⟩ := (State.status_eq_running s).1 hs
  refine ⟨h1, h2, ?_⟩
  rcases cycleWith_outcome m s with ⟨i, rest, hd, hx⟩ | ⟨f, hx, hf⟩
  · rw [hx] at hc
    rcases exec_outcome i s with ⟨u, hu, he⟩ | ⟨f, hu, hf⟩
    · obtain rfl : u = t := by
        rw [hc] at hu
        cases hu
        rfl
      exact .inl ⟨i, fetched_fits hd, hc, he⟩
    · rw [hu] at hc
      cases hc
      refine .inr ⟨f, rfl, ?_⟩
      rcases hf with rfl | rfl | rfl | rfl <;> simp
  · rw [hx] at hc
    cases hc
    refine .inr ⟨f, rfl, ?_⟩
    rcases hf with rfl | rfl <;> simp

end Sys2Proof.Machine
end

