-- ==== Sys2Proof/Laws/PerInstr.lean ====
section
/-! SUPPORT. A fact about every instruction as syntax, one lemma per constructor: the encoded length is that of its format (R54). -/

namespace Sys2Proof.Laws.EncodingLength

/-- Under every opcode map the encoding has `len(op)` bytes and begins with the opcode byte (R53, R54). -/
def Statement (i : Instr) : Prop :=
  ∀ m : OpcodeMap, (encodeWith m i).length = instrLength i ∧ (encodeWith m i).head? = some (m.byte i.opcode)

theorem ldi (a imm : Byte) : Statement (.ldi a imm) := fun _ => ⟨rfl, rfl⟩

theorem prn (a : Byte) : Statement (.prn a) := fun _ => ⟨rfl, rfl⟩

theorem add (a b : Byte) : Statement (.add a b) := fun _ => ⟨rfl, rfl⟩

theorem mul (a b : Byte) : Statement (.mul a b) := fun _ => ⟨rfl, rfl⟩

theorem push (a : Byte) : Statement (.push a) := fun _ => ⟨rfl, rfl⟩

theorem pop (a : Byte) : Statement (.pop a) := fun _ => ⟨rfl, rfl⟩

theorem call (a : Byte) : Statement (.call a) := fun _ => ⟨rfl, rfl⟩

theorem ret : Statement .ret := fun _ => ⟨rfl, rfl⟩

theorem hlt : Statement .hlt := fun _ => ⟨rfl, rfl⟩

end Sys2Proof.Laws.EncodingLength
end

