-- ==== Sys2Proof/Tests/Slice0.lean ====
section
/-! SUPPORT. The model's own tests: the words of every instruction, well-formedness, single steps taken from spec/95_test_vectors.md (V and L numbers), the host's two entry points, and for each statement of Obligations.lean a witness that its hypotheses can be met, at a boundary value, clause by clause. -/

namespace Sys2Proof.Tests

open Sys2Proof Sys2Proof.Machine

/-- All registers 0. -/
def zeros : RegFile := RegFile.all 0#8

/-- A Running engine with the given memory, pc, sp and registers. -/
def at_ (mem : Memory) (pc : PcWord) (sp : Byte) (x : RegFile) : State :=
  { mem := mem, x := x, pc := pc, sp := sp, running := true, fault := none, out := [] }

/-- The next state of an outcome, if it is one. -/
def after (r : Host.Outcome State Fault Refusal) : Option State :=
  match r with
  | .next t => some t
  | .fault _ => none
  | .refused _ => none

/-! ### Encodings, from R54 and R58 (default opcode bytes) -/

theorem test_decode_ldi : decode [0b10000010#8, 0b00000011#8, 0b11001000#8] = .ok (.ldi 3#8 200#8, []) := by decide
theorem test_decode_prn : decode [0b01000111#8, 0b00000111#8, 9#8] = .ok (.prn 7#8, [9#8]) := by decide
theorem test_decode_add : decode [0b10100000#8, 0b00000001#8, 0b00000010#8] = .ok (.add 1#8 2#8, []) := by decide
theorem test_decode_mul : decode [0b10100010#8, 0b00000100#8, 0b11001000#8] = .ok (.mul 4#8 200#8, []) := by decide
theorem test_decode_push : decode [0b01000101#8, 0b00000110#8] = .ok (.push 6#8, []) := by decide
theorem test_decode_pop : decode [0b01000110#8, 0b00000000#8] = .ok (.pop 0#8, []) := by decide
theorem test_decode_call : decode [0b01010000#8, 0b00000001#8] = .ok (.call 1#8, []) := by decide
theorem test_decode_ret : decode [0b00010001#8] = .ok (.ret, []) := by decide
theorem test_decode_hlt : decode [0b00000001#8, 0#8] = .ok (.hlt, [0#8]) := by decide
theorem test_decode_illegal : decode [0xA1#8, 9#8, 9#8] = .error (.invalidOpcode 0xA1#8) := by decide
theorem test_decode_cut_short : decode [0x82#8, 9#8] = .error (.missingOperand .ldi) := by decide
theorem test_decode_nothing : decode [] = .error .noOpcode := by decide
theorem test_encode_scenario : [Instr.ldi 0#8 8#8, .ldi 1#8 9#8, .mul 0#8 1#8, .prn 0#8, .hlt].flatMap encode =
    [0x82#8, 0#8, 8#8, 0x82#8, 1#8, 9#8, 0xA2#8, 0#8, 1#8, 0x47#8, 0#8, 0x01#8] := by decide
theorem test_table_words : decodeTableWord 8 0x82 = some (.ldi 0#8 0#8) ∧ decodeTableWord 24 0x020782 = some (.ldi 7#8 2#8) ∧
    decodeTableWord 16 0x0350 = some (.call 3#8) ∧ decodeTableWord 8 0x11 = some .ret ∧ decodeTableWord 8 0x00 = none := by decide
theorem test_fetch_word_runs : after (step (State.reset.withFetchWord 24 0x2A0782)) =
    after (exec (.ldi 7#8 0x2A#8) (State.reset.withFetchWord 24 0x2A0782)) := by decide

/-! ### Well-formedness: an ill-formed term for each checked operand -/

theorem test_wellFormed_accepts : (Instr.ldi 7#8 255#8).wellFormed = true ∧ (Instr.add 7#8 0#8).wellFormed = true ∧
    Instr.ret.wellFormed = true ∧ Instr.hlt.wellFormed = true := by decide
theorem test_wellFormed_refuses_ldi : (Instr.ldi 8#8 0#8).wellFormed = false := by decide
theorem test_wellFormed_refuses_prn : (Instr.prn 8#8).wellFormed = false := by decide
theorem test_wellFormed_refuses_add : (Instr.add 8#8 0#8).wellFormed = false ∧ (Instr.add 0#8 8#8).wellFormed = false := by decide
theorem test_wellFormed_refuses_mul : (Instr.mul 255#8 0#8).wellFormed = false ∧ (Instr.mul 0#8 200#8).wellFormed = false := by decide
theorem test_wellFormed_refuses_push : (Instr.push 8#8).wellFormed = false := by decide
theorem test_wellFormed_refuses_pop : (Instr.pop 9#8).wellFormed = false := by decide
theorem test_wellFormed_refuses_call : (Instr.call 8#8).wellFormed = false := by decide

/-! ### Single steps, from spec/95_test_vectors.md -/

/-- V5: the last place a 3-byte instruction fits. -/
theorem test_step_ldi_at_253 : (after (step (at_ [(253, 0x82#8), (254, 1#8), (255, 5#8)] 253#9 255#8 zeros))).map
    (fun t => (t.x.r1, t.pc, t.fault)) = some (5#8, 256#9, none) := by decide
/-- V8: the operand fetch fault outranks the bad index. -/
theorem test_step_ldi_priority : (after (step (at_ [(254, 0x82#8), (255, 9#8)] 254#9 255#8 zeros))).map
    (fun t => (t.pc, t.fault)) = some (254#9, some .outOfBounds) := by decide
/-- V11. -/
theorem test_step_prn_255 : (after (step (at_ [(0, 0x47#8), (1, 2#8)] 0#9 255#8 (zeros.set 2 255#8)))).map
    (fun t => (t.out, t.pc)) = some ([255#8], 2#9) := by decide
/-- V12. -/
theorem test_step_prn_bad_register : (after (step (at_ [(0, 0x47#8), (1, 8#8)] 0#9 255#8 zeros))).map
    (fun t => (t.out, t.pc, t.fault)) = some ([], 0#9, some .invalidRegister) := by decide
/-- V17: source and destination the same register. -/
theorem test_step_add_same_register : (after (step (at_ [(0, 0xA0#8), (1, 2#8), (2, 2#8)] 0#9 255#8 (zeros.set 2 255#8)))).map
    (fun t => (t.x.r2, t.pc)) = some (254#8, 3#9) := by decide
/-- V20: a bad second operand. -/
theorem test_step_add_bad_register : (after (step (at_ [(0, 0xA0#8), (2, 8#8)] 0#9 255#8 (zeros.set 0 1#8)))).map
    (fun t => (t.x.r0, t.fault)) = some (1#8, some .invalidRegister) := by decide
/-- V25. -/
theorem test_step_mul_wraps : (after (step (at_ [(0, 0xA2#8), (2, 1#8)] 0#9 255#8 ((zeros.set 0 255#8).set 1 255#8)))).map
    (fun t => (t.x.r0, t.x.r1, t.pc)) = some (1#8, 255#8, 3#9) := by decide
/-- V30: the second operand is an index, not an immediate. -/
theorem test_step_mul_index : (after (step (at_ [(0, 0xA2#8), (2, 0xC8#8)] 0#9 255#8 (zeros.set 0 2#8)))).map
    (fun t => (t.x.r0, t.fault)) = some (2#8, some .invalidRegister) := by decide
/-- V35: a push over the instruction's own operand cell. -/
theorem test_step_push_over_itself : (after (step (at_ [(0, 0x45#8)] 0#9 2#8 (zeros.set 0 99#8)))).map
    (fun t => (Memory.read t.mem 1, t.sp, t.pc)) = some (99#8, 1#8, 2#9) := by decide
/-- V34: the register check outranks the stack check. -/
theorem test_step_push_priority : (after (step (at_ [(20, 0x45#8), (21, 8#8)] 20#9 0#8 zeros))).map
    (fun t => t.fault) = some (some .invalidRegister) := by decide
/-- V40: a pop from the deepest cell. -/
theorem test_step_pop_deepest : (after (step (at_ [(0, 0xAB#8), (10, 0x46#8), (11, 2#8)] 10#9 0#8 zeros))).map
    (fun t => (t.x.r2, t.sp, t.pc)) = some (171#8, 1#8, 12#9) := by decide
/-- V38: memory cell 255 is not popped. -/
theorem test_step_pop_empty : (after (step (at_ [(0, 0x46#8), (255, 0x42#8)] 0#9 255#8 (zeros.set 0 5#8)))).map
    (fun t => (t.x.r0, t.sp, t.fault)) = some (5#8, 255#8, some .stackUnderflow) := by decide
/-- V46: the return address 255 fits and lands on the CALL's own operand cell. -/
theorem test_step_call_at_253 : (after (step (at_ [(253, 0x50#8), (254, 2#8)] 253#9 255#8 (zeros.set 2 40#8)))).map
    (fun t => (Memory.read t.mem 254, t.sp, t.pc)) = some (255#8, 254#8, 40#9) := by decide
/-- V48: the stack check outranks the return-address check. -/
theorem test_step_call_priority : (after (step (at_ [(254, 0x50#8), (255, 2#8)] 254#9 0#8 (zeros.set 2 40#8)))).map
    (fun t => (t.pc, t.fault)) = some (254#9, some .stackOverflow) := by decide
/-- V53: RET at the last address. -/
theorem test_step_ret_at_255 : (after (step (at_ [(100, 0xC8#8), (255, 0x11#8)] 255#9 100#8 zeros))).map
    (fun t => (t.pc, t.sp)) = some (200#9, 101#8) := by decide
/-- V52. -/
theorem test_step_ret_empty : (after (step (at_ [(30, 0x11#8)] 30#9 255#8 zeros))).map
    (fun t => (t.pc, t.fault)) = some (30#9, some .stackUnderflow) := by decide
/-- V56. -/
theorem test_step_hlt_at_255 : (after (step (at_ [(255, 0x01#8)] 255#9 255#8 zeros))).map
    (fun t => (t.running, t.pc, t.fault, t.status)) = some (false, 256#9, none, .halted) := by decide
/-- V57: an empty machine faults on its first step. -/
theorem test_step_empty_memory : (after (step State.reset)).map (fun t => (t.pc, t.fault)) = some (0#9, some .invalidOpcode) := by decide
/-- V58: ALU-marked but not in the set. -/
theorem test_step_alu_marked : (after (step (at_ [(4, 0xA1#8), (5, 9#8), (6, 9#8)] 4#9 0#8 zeros))).map
    (fun t => t.fault) = some (some .invalidOpcode) := by decide
/-- V59: no operand fetch for an illegal opcode. -/
theorem test_step_illegal_at_255 : (after (step (at_ [(255, 0xFF#8)] 255#9 255#8 zeros))).map
    (fun t => t.fault) = some (some .invalidOpcode) := by decide
/-- V60: a fetch at 256. -/
theorem test_step_at_256 : (after (step (at_ [] 256#9 255#8 zeros))).map (fun t => (t.pc, t.fault)) = some (256#9, some .outOfBounds) := by decide
/-- L5: a second load overwrites only the cells it covers. -/
theorem test_load_twice : ((load [0x82#8, 0#8, 8#8] State.reset).bind (load [1#8])).map (fun t => t.mem) =
    .ok [(0, 1#8), (2, 8#8)] := by decide
/-- L2: 257 bytes do not fit. -/
theorem test_load_257 : load (List.replicate 257 1#8) State.reset = .error .programTooLarge :=
  if_neg (by rw [List.length_replicate]; decide)

/-! ### Witnesses: the hypotheses of each statement can be met -/

theorem witness_DecodeOfEncodeIsTheInstruction :
    defaultOpcodes.Distinct := by
  decide

theorem witness_DecodeOfEncodeIsTheInstruction_otherMap :
    OpcodeMap.Distinct ⟨0#8, 1#8, 2#8, 3#8, 4#8, 5#8, 6#8, 7#8, 255#8⟩ := by
  decide

theorem witness_EncodeOfDecodeIsTheBytes :
    decodeWith defaultOpcodes [0xA0#8, 255#8, 0#8, 9#8] = .ok (.add 255#8 0#8, [9#8]) := by
  decide

theorem witness_OpcodeByteAloneSelectsInstructionAndLength :
    decodeWith defaultOpcodes [0x47#8, 255#8] = .ok (.prn 255#8, []) ∧
      decodeWith defaultOpcodes [0x47#8, 0#8, 1#8] = .ok (.prn 0#8, [1#8]) := by
  decide

theorem witness_StepRunsTheDecodedInstruction :
    (at_ [(253, 0x82#8), (254, 7#8), (255, 255#8)] 253#9 255#8 zeros).status = .running ∧
      decode (fetchBytes (at_ [(253, 0x82#8), (254, 7#8), (255, 255#8)] 253#9 255#8 zeros)) = .ok (.ldi 7#8 255#8, []) := by
  decide

theorem witness_StepRunsTheEncodedInstructionInMemory :
    (at_ [(255, 0x11#8)] 255#9 255#8 zeros).status = .running ∧ (255#9).toNat + instrLength .ret ≤ 256 ∧
      Memory.readBytes [(255, 0x11#8)] 255 (instrLength .ret) = encodeWith defaultOpcodes .ret := by
  decide

theorem witness_PlacedTableWordRunsNext :
    (at_ [] 253#9 255#8 zeros).status = .running ∧ Memory.wf [] = true ∧ (253#9).toNat ≤ 253 ∧
      decodeTableWord 24 0xFF0782 = some (.ldi 7#8 255#8) := by
  decide

theorem witness_FetchBeyondMemoryRaisesOutOfBounds :
    (at_ [] 256#9 255#8 zeros).status = .running ∧ 256 ≤ (256#9).toNat := by
  decide

theorem witness_OpcodeOutsideTheSetRaisesInvalidOpcode :
    (at_ [(255, 255#8)] 255#9 255#8 zeros).status = .running ∧ (255#9).toNat ≤ 255 ∧
      Memory.read [(255, 255#8)] 255 ∉ defaultOpcodes.toList := by
  decide

theorem witness_OperandFetchBeyondMemoryRaisesOutOfBounds_fault :
    atOpcode defaultOpcodes .add (at_ [(254, 0xA0#8)] 254#9 255#8 zeros) ∧ 256 < (254#9).toNat + 1 + operandCount .add := by
  unfold atOpcode; decide

theorem witness_OperandFetchBeyondMemoryRaisesOutOfBounds_executes :
    atOpcode defaultOpcodes .add (at_ [(253, 0xA0#8)] 253#9 255#8 zeros) ∧ (253#9).toNat + 1 + operandCount .add ≤ 256 := by
  unfold atOpcode; decide

theorem witness_StepIsEnabledExactlyWhenRunning_halted :
    (at_ [] 0#9 255#8 zeros).clearRunning.running = false ∧ (at_ [] 0#9 255#8 zeros).clearRunning.fault = none := by
  decide

theorem witness_StepIsEnabledExactlyWhenRunning_faulted :
    ((at_ [] 0#9 255#8 zeros).latch .invalidOpcode).fault = some .invalidOpcode := by
  decide

theorem witness_StepEqualsTheListing :
    defaultOpcodes.Distinct ∧ (at_ [] 256#9 0#8 zeros).status = .running := by
  decide

theorem witness_FaultOfAStepIsTheFaultTable :
    defaultOpcodes.Distinct ∧ (at_ [(254, 0x50#8), (255, 2#8)] 254#9 0#8 zeros).status = .running := by
  decide

theorem witness_LdiWritesTheImmediate_completes :
    (7#8 : Byte).toNat = (7 : Fin 8).val ∧ (253#9).toNat ≤ 253 := by
  decide

theorem witness_LdiWritesTheImmediate_badRegister :
    7 < (8#8 : Byte).toNat := by
  decide

theorem witness_LdiWritesTheImmediate_outOfBounds :
    defaultOpcodes.Distinct ∧ atOpcode defaultOpcodes .ldi (at_ [(254, 0x82#8)] 254#9 255#8 zeros) ∧ 254 ≤ (254#9).toNat := by
  unfold atOpcode; decide

theorem witness_LdiWritesTheImmediate_fetched :
    defaultOpcodes.Distinct ∧ atOpcode defaultOpcodes .ldi (at_ [(253, 0x82#8)] 253#9 255#8 zeros) ∧ (253#9).toNat ≤ 253 := by
  unfold atOpcode; decide

theorem witness_PrnAppendsTheRegister_completes :
    (0#8 : Byte).toNat = (0 : Fin 8).val ∧ (254#9).toNat ≤ 254 := by
  decide

theorem witness_PrnAppendsTheRegister_badRegister :
    7 < (8#8 : Byte).toNat := by
  decide

theorem witness_PrnAppendsTheRegister_outOfBounds :
    defaultOpcodes.Distinct ∧ atOpcode defaultOpcodes .prn (at_ [(255, 0x47#8)] 255#9 255#8 zeros) ∧ (255#9).toNat = 255 := by
  unfold atOpcode; decide

theorem witness_PrnAppendsTheRegister_fetched :
    defaultOpcodes.Distinct ∧ atOpcode defaultOpcodes .prn (at_ [(254, 0x47#8)] 254#9 255#8 zeros) ∧ (254#9).toNat ≤ 254 := by
  unfold atOpcode; decide

theorem witness_AddWritesTheSumModulo256_completes :
    (7#8 : Byte).toNat = (7 : Fin 8).val ∧ (0#8 : Byte).toNat = (0 : Fin 8).val ∧ (253#9).toNat ≤ 253 := by
  decide

theorem witness_AddWritesTheSumModulo256_badRegister :
    7 < (7#8 : Byte).toNat ∨ 7 < (8#8 : Byte).toNat := by
  decide

theorem witness_AddWritesTheSumModulo256_outOfBounds :
    defaultOpcodes.Distinct ∧ atOpcode defaultOpcodes .add (at_ [(254, 0xA0#8)] 254#9 255#8 zeros) ∧ 254 ≤ (254#9).toNat := by
  unfold atOpcode; decide

theorem witness_AddWritesTheSumModulo256_fetched :
    defaultOpcodes.Distinct ∧ atOpcode defaultOpcodes .add (at_ [(253, 0xA0#8)] 253#9 255#8 zeros) ∧ (253#9).toNat ≤ 253 := by
  unfold atOpcode; decide

theorem witness_MulWritesTheProductModulo256_completes :
    (7#8 : Byte).toNat = (7 : Fin 8).val ∧ (0#8 : Byte).toNat = (0 : Fin 8).val ∧ (253#9).toNat ≤ 253 := by
  decide

theorem witness_MulWritesTheProductModulo256_badRegister :
    7 < (7#8 : Byte).toNat ∨ 7 < (8#8 : Byte).toNat := by
  decide

theorem witness_MulWritesTheProductModulo256_outOfBounds :
    defaultOpcodes.Distinct ∧ atOpcode defaultOpcodes .mul (at_ [(254, 0xA2#8)] 254#9 255#8 zeros) ∧ 254 ≤ (254#9).toNat := by
  unfold atOpcode; decide

theorem witness_MulWritesTheProductModulo256_fetched :
    defaultOpcodes.Distinct ∧ atOpcode defaultOpcodes .mul (at_ [(253, 0xA2#8)] 253#9 255#8 zeros) ∧ (253#9).toNat ≤ 253 := by
  unfold atOpcode; decide

theorem witness_PushStoresTheRegister_completes :
    (7#8 : Byte).toNat = (7 : Fin 8).val ∧ 1 ≤ (1#8 : Byte).toNat ∧ (254#9).toNat ≤ 254 ∧ Memory.wf [(254, 0x45#8), (255, 7#8)] = true := by
  decide

theorem witness_PushStoresTheRegister_badRegister :
    7 < (8#8 : Byte).toNat := by
  decide

theorem witness_PushStoresTheRegister_overflow :
    (7#8 : Byte).toNat ≤ 7 ∧ (0#8 : Byte).toNat = 0 := by
  decide

theorem witness_PushStoresTheRegister_outOfBounds :
    defaultOpcodes.Distinct ∧ atOpcode defaultOpcodes .push (at_ [(255, 0x45#8)] 255#9 255#8 zeros) ∧ (255#9).toNat = 255 := by
  unfold atOpcode; decide

theorem witness_PushStoresTheRegister_fetched :
    defaultOpcodes.Distinct ∧ atOpcode defaultOpcodes .push (at_ [(254, 0x45#8)] 254#9 255#8 zeros) ∧ (254#9).toNat ≤ 254 := by
  unfold atOpcode; decide

theorem witness_PopLoadsTheTopOfTheStack_completes :
    (7#8 : Byte).toNat = (7 : Fin 8).val ∧ (254#8 : Byte).toNat ≤ 254 ∧ (254#9).toNat ≤ 254 := by
  decide

theorem witness_PopLoadsTheTopOfTheStack_badRegister :
    7 < (8#8 : Byte).toNat := by
  decide

theorem witness_PopLoadsTheTopOfTheStack_underflow :
    (7#8 : Byte).toNat ≤ 7 ∧ (255#8 : Byte).toNat = 255 := by
  decide

theorem witness_PopLoadsTheTopOfTheStack_outOfBounds :
    defaultOpcodes.Distinct ∧ atOpcode defaultOpcodes .pop (at_ [(255, 0x46#8)] 255#9 255#8 zeros) ∧ (255#9).toNat = 255 := by
  unfold atOpcode; decide

theorem witness_PopLoadsTheTopOfTheStack_fetched :
    defaultOpcodes.Distinct ∧ atOpcode defaultOpcodes .pop (at_ [(254, 0x46#8)] 254#9 255#8 zeros) ∧ (254#9).toNat ≤ 254 := by
  unfold atOpcode; decide

theorem witness_CallPushesTheReturnAddressAndJumps_completes :
    (7#8 : Byte).toNat = (7 : Fin 8).val ∧ 1 ≤ (1#8 : Byte).toNat ∧ (253#9).toNat ≤ 253 ∧ Memory.wf [(253, 0x50#8), (254, 7#8)] = true := by
  decide

theorem witness_CallPushesTheReturnAddressAndJumps_badRegister :
    7 < (8#8 : Byte).toNat := by
  decide

theorem witness_CallPushesTheReturnAddressAndJumps_overflow :
    (7#8 : Byte).toNat ≤ 7 ∧ (0#8 : Byte).toNat = 0 := by
  decide

theorem witness_CallPushesTheReturnAddressAndJumps_returnAddress :
    (7#8 : Byte).toNat ≤ 7 ∧ 1 ≤ (1#8 : Byte).toNat ∧ 254 ≤ (254#9).toNat := by
  decide

theorem witness_CallPushesTheReturnAddressAndJumps_outOfBounds :
    defaultOpcodes.Distinct ∧ atOpcode defaultOpcodes .call (at_ [(255, 0x50#8)] 255#9 255#8 zeros) ∧ (255#9).toNat = 255 := by
  unfold atOpcode; decide

theorem witness_CallPushesTheReturnAddressAndJumps_fetched :
    defaultOpcodes.Distinct ∧ atOpcode defaultOpcodes .call (at_ [(254, 0x50#8)] 254#9 255#8 zeros) ∧ (254#9).toNat ≤ 254 := by
  unfold atOpcode; decide

theorem witness_RetPopsIntoThePc_completes :
    (254#8 : Byte).toNat ≤ 254 := by
  decide

theorem witness_RetPopsIntoThePc_underflow :
    (255#8 : Byte).toNat = 255 := by
  decide

theorem witness_RetPopsIntoThePc_fetched :
    defaultOpcodes.Distinct ∧ atOpcode defaultOpcodes .ret (at_ [(255, 0x11#8)] 255#9 255#8 zeros) := by
  unfold atOpcode; decide

theorem witness_HltClearsTheRunningFlag_completes :
    (255#9).toNat ≤ 255 := by
  decide

theorem witness_HltClearsTheRunningFlag_fetched :
    defaultOpcodes.Distinct ∧ atOpcode defaultOpcodes .hlt (at_ [(255, 0x01#8)] 255#9 255#8 zeros) := by
  unfold atOpcode; decide

theorem witness_HltClearsTheRunningFlag_halted :
    ∃ t, (at_ [] 255#9 255#8 zeros).fault = none ∧ exec .hlt (at_ [] 255#9 255#8 zeros) = .next t := by
  exact ⟨_, rfl, rfl⟩

theorem witness_IllegalRegisterIndexRaisesInvalidRegister :
    (Instr.add 7#8 8#8).wellFormed = false := by
  decide

theorem witness_UnsupportedOperationIsOnlyTheAluBlocks :
    ∃ t, stepWith defaultOpcodes (at_ [(0, 0xA2#8)] 0#9 255#8 zeros) = .next t := by
  exact ⟨_, rfl⟩

theorem witness_EveryStepKeepsTheInvariant :
    ∃ t, (at_ [(20, 0x45#8), (21, 1#8)] 20#9 1#8 (zeros.set 1 9#8)).Inv ∧ stepWith defaultOpcodes (at_ [(20, 0x45#8), (21, 1#8)] 20#9 1#8 (zeros.set 1 9#8)) = .next t := by
  exact ⟨_, ⟨by decide, by decide, by decide, by decide, by decide⟩, rfl⟩

theorem witness_EveryRunOfEveryProgramKeepsTheInvariant :
    ∃ s, load [0x82#8, 0#8, 8#8] (State.resetWith (RegFile.all 255#8)) = .ok s := by
  exact ⟨_, rfl⟩

theorem witness_FaultingStepChangesOnlyTheLatch :
    ∃ t, stepWith defaultOpcodes (at_ [(0, 0x46#8)] 0#9 255#8 zeros) = .next t ∧ t.fault ≠ none := by
  exact ⟨_, rfl, by decide⟩

theorem witness_PcChangesAsTheTableSays_completes :
    ∃ t, (at_ [] 255#9 254#8 zeros).fault = none ∧ (255#9).toNat + instrLength .ret ≤ 256 ∧
      exec .ret (at_ [] 255#9 254#8 zeros) = .next t ∧ t.fault = none := by
  exact ⟨_, rfl, by decide, rfl, by decide⟩

theorem witness_PcChangesAsTheTableSays_faults :
    ∃ t, (at_ [] 254#9 254#8 zeros).fault = none ∧ (254#9).toNat + instrLength (.call 0#8) ≤ 256 ∧
      exec (.call 0#8) (at_ [] 254#9 254#8 zeros) = .next t ∧ t.fault ≠ none := by
  exact ⟨_, rfl, by decide, rfl, by decide⟩

theorem witness_SpChangesAsTheTableSays_completes :
    ∃ t, (at_ [] 0#9 1#8 zeros).fault = none ∧ exec (.push 7#8) (at_ [] 0#9 1#8 zeros) = .next t ∧ t.fault = none := by
  exact ⟨_, rfl, rfl, by decide⟩

theorem witness_SpChangesAsTheTableSays_faults :
    ∃ t, (at_ [] 0#9 0#8 zeros).fault = none ∧ exec (.push 7#8) (at_ [] 0#9 0#8 zeros) = .next t ∧ t.fault ≠ none := by
  exact ⟨_, rfl, rfl, by decide⟩

theorem witness_SpChangesAsTheTableSays_call :
    ∃ t, (at_ [] 0#9 1#8 zeros).fault = none ∧ exec (.call 7#8) (at_ [] 0#9 1#8 zeros) = .next t ∧ t.fault = none := by
  exact ⟨_, rfl, rfl, by decide⟩

theorem witness_SpChangesAsTheTableSays_call_overflow :
    ∃ t, (at_ [] 0#9 0#8 zeros).fault = none ∧ exec (.call 7#8) (at_ [] 0#9 0#8 zeros) = .next t ∧ t.fault ≠ none := by
  exact ⟨_, rfl, rfl, by decide⟩

theorem witness_SpChangesAsTheTableSays_pop :
    ∃ t, (at_ [] 0#9 254#8 zeros).fault = none ∧ exec (.pop 7#8) (at_ [] 0#9 254#8 zeros) = .next t ∧ t.fault = none := by
  exact ⟨_, rfl, rfl, by decide⟩

theorem witness_SpChangesAsTheTableSays_pop_underflow :
    ∃ t, (at_ [] 0#9 255#8 zeros).fault = none ∧ exec (.pop 7#8) (at_ [] 0#9 255#8 zeros) = .next t ∧ t.fault ≠ none := by
  exact ⟨_, rfl, rfl, by decide⟩

theorem witness_SpChangesAsTheTableSays_ret :
    ∃ t, (at_ [] 0#9 254#8 zeros).fault = none ∧ exec (.ret) (at_ [] 0#9 254#8 zeros) = .next t ∧ t.fault = none := by
  exact ⟨_, rfl, rfl, by decide⟩

theorem witness_SpChangesAsTheTableSays_ret_underflow :
    ∃ t, (at_ [] 0#9 255#8 zeros).fault = none ∧ exec (.ret) (at_ [] 0#9 255#8 zeros) = .next t ∧ t.fault ≠ none := by
  exact ⟨_, rfl, rfl, by decide⟩

theorem witness_PcChangesAsTheTableSays_call :
    ∃ t, (at_ [] 253#9 255#8 zeros).fault = none ∧ (253#9).toNat + instrLength (.call 7#8) ≤ 256 ∧
      exec (.call 7#8) (at_ [] 253#9 255#8 zeros) = .next t ∧ t.fault = none := by
  exact ⟨_, rfl, by decide, rfl, by decide⟩

theorem witness_PcChangesAsTheTableSays_push :
    ∃ t, (at_ [] 253#9 255#8 zeros).fault = none ∧ (253#9).toNat + instrLength (.push 7#8) ≤ 256 ∧
      exec (.push 7#8) (at_ [] 253#9 255#8 zeros) = .next t ∧ t.fault = none := by
  exact ⟨_, rfl, by decide, rfl, by decide⟩

theorem witness_PcChangesAsTheTableSays_hlt :
    ∃ t, (at_ [] 253#9 255#8 zeros).fault = none ∧ (253#9).toNat + instrLength .hlt ≤ 256 ∧
      exec .hlt (at_ [] 253#9 255#8 zeros) = .next t ∧ t.fault = none := by
  exact ⟨_, rfl, by decide, rfl, by decide⟩

theorem witness_OnlyTheNamedDestinationRegisterIsWritten :
    ∃ t, exec (.pop 7#8) (at_ [] 0#9 254#8 zeros) = .next t ∧ (7#8 : Byte).toNat ≠ (6 : Fin 8).val := by
  exact ⟨_, rfl, by decide⟩

theorem witness_UnnamedRegistersAreNeitherReadNorWritten :
    (∀ b ∈ (Instr.mul 0#8 6#8).registerOperands, b.toNat ≠ (7 : Fin 8).val) ∧
      ∃ t, exec (.mul 0#8 6#8) (at_ [] 0#9 254#8 zeros) = .next t := by
  exact ⟨by decide, _, rfl⟩

theorem witness_OnlyPushAndCallWriteOneCellOfMemory :
    ∃ t, exec (.push 0#8) (at_ [] 0#9 1#8 zeros) = .next t ∧ pushedSp (at_ [] 0#9 1#8 zeros) = .ok 0#8 ∧ 1 ≠ (0#8 : Byte).toNat := by
  exact ⟨_, rfl, by decide, by decide⟩

theorem witness_CellTwoFiftyFiveIsWrittenByNoStep_step :
    ∃ t, stepWith defaultOpcodes (at_ [(0, 0x45#8)] 0#9 255#8 (zeros.set 0 9#8)) = .next t := by
  exact ⟨_, rfl⟩

theorem witness_CellTwoFiftyFiveIsWrittenByNoStep_firstPush :
    (7#8 : Byte).toNat = (7 : Fin 8).val := by
  decide

theorem witness_RunTakenFurtherIsTheLongerRun :
    (hostNew zeros).phase = .ready := by
  decide

theorem witness_OutputGrowsOnlyByPrn :
    ∃ t, (at_ [] 254#9 255#8 zeros).fault = none ∧ exec (.prn 7#8) (at_ [] 254#9 255#8 zeros) = .next t := by
  exact ⟨_, rfl, rfl⟩

theorem witness_OutputIsNeverReadBack :
    ∃ t, stepWith defaultOpcodes (at_ [(254, 0x47#8), (255, 7#8)] 254#9 255#8 zeros) = .next t := by
  exact ⟨_, rfl⟩

theorem witness_RunningFlagIsClearedExactlyByHlt :
    ∃ t, exec .hlt (at_ [] 255#9 255#8 zeros) = .next t := by
  exact ⟨_, rfl⟩

theorem witness_MemoryContractHolds_outside :
    256 ≤ 256 := by
  decide

theorem witness_MemoryContractHolds_inside :
    255 < 256 ∧ Memory.wf [(0, 1#8), (255, 255#8)] = true := by
  decide

theorem witness_CanonicalMemoriesThatReadAlikeAreEqual :
    Memory.wf [(0, 1#8), (255, 255#8)] = true ∧ ∀ a, a < 256 → Memory.read [(0, 1#8), (255, 255#8)] a = Memory.read [(0, 1#8), (255, 255#8)] a := by
  exact ⟨by decide, fun _ _ => rfl⟩

theorem witness_PushThenPopMovesTheRegister :
    defaultOpcodes.Distinct ∧ (at_ [(252, 0x45#8), (253, 7#8), (254, 0x46#8)] 252#9 254#8 zeros).status = .running ∧ Memory.wf (at_ [(252, 0x45#8), (253, 7#8), (254, 0x46#8)] 252#9 254#8 zeros).mem = true ∧ (at_ [(252, 0x45#8), (253, 7#8), (254, 0x46#8)] 252#9 254#8 zeros).pc.toNat ≤ 252 ∧
      1 ≤ (at_ [(252, 0x45#8), (253, 7#8), (254, 0x46#8)] 252#9 254#8 zeros).sp.toNat ∧ Memory.read (at_ [(252, 0x45#8), (253, 7#8), (254, 0x46#8)] 252#9 254#8 zeros).mem (at_ [(252, 0x45#8), (253, 7#8), (254, 0x46#8)] 252#9 254#8 zeros).pc.toNat = defaultOpcodes.push ∧
      ((at_ [(252, 0x45#8), (253, 7#8), (254, 0x46#8)] 252#9 254#8 zeros).operandByte 1).toNat = (7 : Fin 8).val ∧ (at_ [(252, 0x45#8), (253, 7#8), (254, 0x46#8)] 252#9 254#8 zeros).operandByte 2 = defaultOpcodes.pop ∧
      ((at_ [(252, 0x45#8), (253, 7#8), (254, 0x46#8)] 252#9 254#8 zeros).operandByte 3).toNat = (0 : Fin 8).val ∧ (at_ [(252, 0x45#8), (253, 7#8), (254, 0x46#8)] 252#9 254#8 zeros).sp.toNat - 1 ≠ (at_ [(252, 0x45#8), (253, 7#8), (254, 0x46#8)] 252#9 254#8 zeros).pc.toNat + 2 ∧ (at_ [(252, 0x45#8), (253, 7#8), (254, 0x46#8)] 252#9 254#8 zeros).sp.toNat - 1 ≠ (at_ [(252, 0x45#8), (253, 7#8), (254, 0x46#8)] 252#9 254#8 zeros).pc.toNat + 3 := by
  decide

theorem witness_RetAfterCallReturnsBehindTheCall :
    ∃ t, (at_ [] 253#9 1#8 zeros).fault = none ∧ Memory.wf (at_ [] 253#9 1#8 zeros).mem = true ∧ (253#9).toNat ≤ 253 ∧
      exec (.call 7#8) (at_ [] 253#9 1#8 zeros) = .next t ∧ t.fault = none ∧ t.sp = t.sp ∧
      Memory.read t.mem t.sp.toNat = Memory.read t.mem t.sp.toNat := by
  exact ⟨_, rfl, by decide, by decide, rfl, by decide, rfl, rfl⟩

theorem witness_PushedByteIsFetchedAsAnOpcode :
    ∃ t, (∃ a, Instr.call 7#8 = .push a ∨ Instr.call 7#8 = .call a) ∧ (at_ [] 0#9 255#8 (zeros.set 7 254#8)).fault = none ∧
      Memory.wf (at_ [] 0#9 255#8 (zeros.set 7 254#8)).mem = true ∧
      exec (.call 7#8) (at_ [] 0#9 255#8 (zeros.set 7 254#8)) = .next t ∧ t.fault = none ∧ t.mem = t.mem ∧ t.pc.toNat = t.sp.toNat := by
  exact ⟨_, ⟨7#8, .inr rfl⟩, rfl, by decide, rfl, by decide, rfl, by decide⟩

theorem witness_LoadWritesExactlyTheProgram :
    (List.replicate 256 1#8).length ≤ 256 ∧ Memory.wf [(255, 255#8)] = true := by
  exact ⟨by rw [List.length_replicate], by decide⟩

theorem witness_LoadBeyondMemoryFailsAndWritesNothing :
    256 < (List.replicate 257 1#8).length ∧ (hostNew zeros).phase ≠ .runBegan := by
  exact ⟨by rw [List.length_replicate]; decide, by decide⟩

theorem witness_HostOperationsOutOfOrderAreRefused :
    (hostNew zeros).phase = .ready ∧ ({ hostNew zeros with phase := .runBegan } : Session).phase = .runBegan ∧
      ({ hostNew zeros with phase := .loadFailed } : Session).phase = .loadFailed := by
  decide

theorem witness_StoppedRunStaysAsItIs_step :
    ∃ t, stepWith defaultOpcodes (at_ [(255, 1#8)] 255#9 255#8 zeros) = .next t := by
  exact ⟨_, rfl⟩

theorem witness_StoppedRunStaysAsItIs_stopped :
    (runWith defaultOpcodes 1 (at_ [(0, 1#8)] 0#9 255#8 zeros)).status ≠ .running := by
  decide

theorem witness_LatchedFaultIsNeverCleared :
    safeRun defaultOpcodes (1 + 1) (at_ [(0, 1#8)] 0#9 255#8 zeros) := by
  unfold safeRun State.safe; decide

theorem witness_FaultNumbersAreDistinct :
    faultNumber (some .programTooLarge) = faultNumber (some .programTooLarge) := by
  decide

end Sys2Proof.Tests
end

section

namespace Sys2Proof.Machine

/-- While a cell stands at pc, what is fetched begins with its byte: the opcode fetch (R68). -/
theorem head?_fetchBytes {s : State} (h : s.pc.toNat < 256) :
    (fetchBytes s).head? = some (Memory.read s.mem s.pc.toNat) := by
  obtain ⟨n, hn⟩ : ∃ n, min Config.maxLength (Config.memCells - s.pc.toNat) = n + 1 :=
    Nat.exists_eq_add_one.mpr (lt_min (by decide) (Nat.sub_pos_of_lt h))
  rw [fetchBytes, hn, Memory.readBytes, List.head?_cons]

/-- Settles O46: the reset's fields one by one, and the opcode fetch at pc 0 for the entry point. -/
theorem resetLeavesTheStatedValues : Obligations.ResetLeavesTheStatedValues := by
  intro regs
  refine ⟨fun a => ?cells, State.resetWith_x regs, ?pc, ?sp, State.resetWith_running regs,
    State.resetWith_fault regs, State.resetWith_out regs, fun mem => ?entry⟩
  case cells => rw [State.resetWith_mem, Memory.read_nil]
  case pc => rw [State.resetWith_pc, BitVec.toNat_zero]
  case sp => rw [State.resetWith_sp, BitVec.toNat_ofNat]
  case entry =>
    have hpc : ({ State.resetWith regs with mem := mem } : State).pc.toNat < 256 := by
      rw [State.resetWith_pc]
      decide
    exact head?_fetchBytes hpc

end Sys2Proof.Machine
end

section

namespace Sys2Proof

/-- Settles O2: distinctness makes the table's lookup of the instruction's opcode byte find its own opcode, and that
opcode's format then reads back the operand bytes the encoder laid out (R54, R59). -/
theorem decodeOfEncodeIsTheInstruction : Obligations.DecodeOfEncodeIsTheInstruction := by
  intro m hm i rest
  have hlookup : lookupOpcode m (m.byte i.opcode) = some i.opcode := lookupOpcode_of_byte hm i.opcode
  calc decodeWith m (encodeWith m i ++ rest)
      = decodeWith m (m.byte i.opcode :: (i.operands ++ rest)) := by rw [encodeWith, List.cons_append]
    _ = decodeOperands i.opcode (i.operands ++ rest) := decodeWith_cons m _ _ hlookup
    _ = .ok (i, rest) := decodeOperands_operands i rest

end Sys2Proof
end

section
/-! Fetch and decode of a Running engine's step, with the faults of each (40_engine_cycle.md section 1). -/

namespace Sys2Proof

/-- The instruction of an opcode whose operand bytes stand first in `a`, `b` (R54). -/
def Opcode.instr (o : Opcode) (a b : Byte) : Instr :=
  match o with
  | .ldi => .ldi a b
  | .prn => .prn a
  | .add => .add a b
  | .mul => .mul a b
  | .push => .push a
  | .pop => .pop a
  | .call => .call a
  | .ret => .ret
  | .hlt => .hlt

@[simp] theorem Opcode.opcode_instr (o : Opcode) (a b : Byte) : (o.instr a b).opcode = o := by
  cases o <;> rfl

theorem Opcode.operands_instr (o : Opcode) (a b : Byte) :
    (o.instr a b).operands = [a, b].take (operandCount o) := by
  cases o <;> rfl

/-- No format has more than two operand bytes (R54). -/
theorem operandCount_le_two (o : Opcode) : operandCount o ≤ 2 := by
  cases o <;> decide

/-- Operand bytes that are all there decode to the instruction they make. -/
theorem decodeOperands_take {o : Opcode} (a b : Byte) {k : Nat} (h : operandCount o ≤ k) :
    ∃ rest, decodeOperands o ([a, b].take k) = .ok (o.instr a b, rest) := by
  obtain ⟨rest, hrest⟩ : [a, b].take (operandCount o) <+: [a, b].take k := List.take_prefix_take_left h
  refine ⟨rest, ?_⟩
  have hdecode := decodeOperands_operands (o.instr a b) rest
  rwa [Opcode.operands_instr, hrest, Opcode.opcode_instr] at hdecode

/-- A legal opcode with too few bytes behind it lacks an operand (R70). -/
theorem decodeOperands_short {o : Opcode} {bytes : List Byte} (h : bytes.length < operandCount o) :
    decodeOperands o bytes = .error (.missingOperand o) := by
  rcases bytes with _ | ⟨a, _ | ⟨b, rest⟩⟩
  case nil => cases o <;> simp [decodeOperands, oneOperand, twoOperands, operandCount] at h ⊢
  case cons.nil => cases o <;> simp [decodeOperands, twoOperands, operandCount] at h ⊢
  case cons.cons =>
    have hcount := operandCount_le_two o
    simp only [List.length_cons] at h
    omega

end Sys2Proof

namespace Sys2Proof.Machine

/-- While a cell stands at pc, the fetch window is its byte and those of the two cells behind it that exist. -/
theorem fetchBytes_cons {s : State} (h : s.pc.toNat ≤ 255) :
    fetchBytes s = Memory.read s.mem s.pc.toNat :: [s.operandByte 1, s.operandByte 2].take (255 - s.pc.toNat) := by
  obtain h3 | h2 | h1 : s.pc.toNat ≤ 253 ∨ s.pc.toNat = 254 ∨ s.pc.toNat = 255 := by omega
  · have hlen : [s.operandByte 1, s.operandByte 2].length ≤ 255 - s.pc.toNat := by
      rw [List.length_cons, List.length_singleton]
      omega
    rw [fetchBytes_three h3, List.take_of_length_le hlen]
  · rw [fetchBytes_two h2, h2]
    rfl
  · rw [fetchBytes_one h1, h1]
    rfl

/-- A Running engine whose decode fails latches the fault of that failure. -/
theorem stepWith_of_decode_error {m : OpcodeMap} {s : State} {e : DecodeError} (hs : s.status = .running)
    (h : decodeWith m (fetchBytes s) = .error e) : stepWith m s = .next (s.latch (decodeFault e)) := by
  rw [stepWith_running hs, cycleWith, h]
  rfl

/-- A Running engine executes what it decodes. -/
theorem stepWith_of_decode_ok {m : OpcodeMap} {s : State} {i : Instr} {rest : List Byte} (hs : s.status = .running)
    (h : decodeWith m (fetchBytes s) = .ok (i, rest)) : stepWith m s = exec i s := by
  rw [stepWith_running hs, cycleWith, h]

/-- The opcode fetch beyond the memory (R68). -/
theorem stepWith_opcodeFetch_outOfBounds (m : OpcodeMap) {s : State} (hs : s.status = .running)
    (hpc : 256 ≤ s.pc.toNat) : stepWith m s = .next (s.latch .outOfBounds) := by
  have hdecode : decodeWith m (fetchBytes s) = .error .noOpcode := by
    rw [fetchBytes_none hpc]
    rfl
  exact stepWith_of_decode_error hs hdecode

/-- Settles O11: the table is asked before any operand byte is wanted, so the decode fails on the opcode byte alone. -/
theorem opcodeOutsideTheSetRaisesInvalidOpcode : Obligations.OpcodeOutsideTheSetRaisesInvalidOpcode := by
  intro m s hs hpc hmem
  have hdecode : decodeWith m (fetchBytes s) = .error (.invalidOpcode (Memory.read s.mem s.pc.toNat)) := by
    rw [fetchBytes_cons hpc]
    exact decodeWith_invalid m _ _ ((lookupOpcode_eq_none m _).2 hmem)
  exact stepWith_of_decode_error hs hdecode

/-- At a legal opcode the decode is that of the operand bytes in the window. -/
theorem decodeWith_fetchBytes {m : OpcodeMap} (hm : m.Distinct) {o : Opcode} {s : State} (h : atOpcode m o s) :
    decodeWith m (fetchBytes s) =
      decodeOperands o ([s.operandByte 1, s.operandByte 2].take (255 - s.pc.toNat)) := by
  obtain ⟨-, hpc, hop⟩ := h
  rw [fetchBytes_cons hpc, hop, decodeWith_cons m _ _ (lookupOpcode_of_byte hm o)]

/-- An operand fetch beyond the memory (R70). -/
theorem stepWith_operandFetch_outOfBounds {m : OpcodeMap} (hm : m.Distinct) {o : Opcode} {s : State}
    (h : atOpcode m o s) (hbeyond : 256 < s.pc.toNat + 1 + operandCount o) :
    stepWith m s = .next (s.latch .outOfBounds) := by
  obtain ⟨hs, hpc, -⟩ := id h
  have hdecode : decodeWith m (fetchBytes s) = .error (.missingOperand o) := by
    rw [decodeWith_fetchBytes hm h]
    refine decodeOperands_short ?_
    rw [List.length_take]
    omega
  exact stepWith_of_decode_error hs hdecode

/-- A legal opcode with its operands inside the memory executes with the bytes at pc+1, pc+2 (R70, R71). -/
theorem stepWith_eq_exec {m : OpcodeMap} (hm : m.Distinct) {o : Opcode} {s : State} (h : atOpcode m o s)
    (hfits : s.pc.toNat + 1 + operandCount o ≤ 256) :
    stepWith m s = exec (o.instr (s.operandByte 1) (s.operandByte 2)) s := by
  have hcount : operandCount o ≤ 255 - s.pc.toNat := by omega
  obtain ⟨rest, hdecode⟩ := decodeOperands_take (s.operandByte 1) (s.operandByte 2) hcount
  rw [← decodeWith_fetchBytes hm h] at hdecode
  exact stepWith_of_decode_ok h.1 hdecode

/-- Settles O12: of the bytes behind the opcode the window holds those that have a cell, and the decode fails exactly
when the format wants one more. -/
theorem operandFetchBeyondMemoryRaisesOutOfBounds : Obligations.OperandFetchBeyondMemoryRaisesOutOfBounds := by
  intro m hm o s h
  refine ⟨stepWith_operandFetch_outOfBounds hm h, fun hfits => ?_⟩
  exact ⟨_, o.opcode_instr _ _, o.operands_instr _ _, stepWith_eq_exec hm h hfits⟩

end Sys2Proof.Machine
end

section
/-! The step against the listing of R72: the dispatch chain, one lemma per instruction, and the four ways of a cycle. -/

namespace Sys2Proof

/-- Distinct opcode bytes tell the opcodes apart (R59). -/
theorem OpcodeMap.byte_inj {m : OpcodeMap} (hm : m.Distinct) (o o' : Opcode) : m.byte o = m.byte o' ↔ o = o' := by
  refine ⟨fun h => Option.some.inj ?_, congrArg m.byte⟩
  rw [← lookupOpcode_of_byte hm o, h, lookupOpcode_of_byte hm o']

/-- Every opcode's byte is in the opcode set (R60). -/
theorem OpcodeMap.byte_mem_toList (m : OpcodeMap) (o : Opcode) : m.byte o ∈ m.toList := by
  cases o <;> simp [OpcodeMap.byte, OpcodeMap.toList]

/-- A chain of tests on an opcode's byte, in the table's order, is a case distinction on the opcode. -/
theorem OpcodeMap.byte_dispatch {α : Type} {m : OpcodeMap} (hm : m.Distinct) (o : Opcode)
    (ldi prn add mul push pop call ret hlt : α) :
    (if m.byte o = m.ldi then ldi else if m.byte o = m.prn then prn else if m.byte o = m.add then add
      else if m.byte o = m.mul then mul else if m.byte o = m.push then push else if m.byte o = m.pop then pop
      else if m.byte o = m.call then call else if m.byte o = m.ret then ret else hlt) =
    match o with
    | .ldi => ldi
    | .prn => prn
    | .add => add
    | .mul => mul
    | .push => push
    | .pop => pop
    | .call => call
    | .ret => ret
    | .hlt => hlt := by
  have htest (o' : Opcode) : m.byte o = m.byte o' ↔ o = o' := OpcodeMap.byte_inj hm o o'
  rw [show m.ldi = m.byte .ldi from rfl, show m.prn = m.byte .prn from rfl, show m.add = m.byte .add from rfl,
    show m.mul = m.byte .mul from rfl, show m.push = m.byte .push from rfl, show m.pop = m.byte .pop from rfl,
    show m.call = m.byte .call from rfl, show m.ret = m.byte .ret from rfl]
  simp only [htest]
  cases o <;> rfl

end Sys2Proof

namespace Sys2Proof.Machine

/-- The listing's operand count is that of the opcode's format. -/
theorem listingOperandCount_byte {m : OpcodeMap} (hm : m.Distinct) (o : Opcode) :
    listingOperandCount m (m.byte o) = operandCount o := by
  have htwo : m.byte o ∈ [m.ldi, m.add, m.mul] ↔ o ∈ [Opcode.ldi, .add, .mul] := by
    simp only [List.mem_cons, List.not_mem_nil, ← OpcodeMap.byte_inj hm]
    rfl
  have hone : m.byte o ∈ [m.prn, m.push, m.pop, m.call] ↔ o ∈ [Opcode.prn, .push, .pop, .call] := by
    simp only [List.mem_cons, List.not_mem_nil, ← OpcodeMap.byte_inj hm]
    rfl
  simp only [listingOperandCount, htwo, hone]
  cases o <;> rfl

/-- A checked register index is the listing's. -/
theorem fin_ofNat_eq {a : Byte} (ha : a.toNat < 8) : Fin.ofNat 8 a.toNat = ⟨a.toNat, ha⟩ :=
  Fin.ext (Nat.mod_eq_of_lt ha)

theorem listingReg_eq (s : State) {a : Byte} (ha : a.toNat < 8) : listingReg s a = s.x.get ⟨a.toNat, ha⟩ := by
  rw [listingReg, fin_ofNat_eq ha]

theorem listingSetReg_eq (s : State) {a : Byte} (ha : a.toNat < 8) (v : Nat) :
    listingSetReg s a v = s.x.set ⟨a.toNat, ha⟩ (BitVec.ofNat 8 v) := by
  rw [listingSetReg, fin_ofNat_eq ha]

/-- A bad register operand faults before anything else an execution does (R18, R102). -/
theorem exec_badRegister {i : Instr} {b : Byte} (hb : b ∈ i.registerOperands) (h7 : 7 < b.toNat) (s : State) :
    exec i s = .next (s.latch .invalidRegister) := by
  have hbad : ¬ b.toNat < 8 := by omega
  cases i with
  | ldi a imm =>
    obtain rfl := List.mem_singleton.1 hb
    simp [exec, execLdi, regOperand_error hbad, bind, Except.bind]
  | prn a =>
    obtain rfl := List.mem_singleton.1 hb
    simp [exec, execPrn, regOperand_error hbad, bind, Except.bind]
  | add a c =>
    have hpair : ¬ (a.toNat < 8 ∧ c.toNat < 8) := by
      rintro ⟨ha, hc⟩
      obtain rfl | rfl := List.mem_pair.1 hb <;> contradiction
    simp [exec, execAdd, aluApply_badRegister (.inl rfl) s hpair, bind, Except.bind]
  | mul a c =>
    have hpair : ¬ (a.toNat < 8 ∧ c.toNat < 8) := by
      rintro ⟨ha, hc⟩
      obtain rfl | rfl := List.mem_pair.1 hb <;> contradiction
    simp [exec, execMul, aluApply_badRegister (.inr rfl) s hpair, bind, Except.bind]
  | push a =>
    obtain rfl := List.mem_singleton.1 hb
    simp [exec, execPush, regOperand_error hbad, bind, Except.bind]
  | pop a =>
    obtain rfl := List.mem_singleton.1 hb
    simp [exec, execPop, regOperand_error hbad, bind, Except.bind]
  | call a =>
    obtain rfl := List.mem_singleton.1 hb
    simp [exec, execCall, regOperand_error hbad, bind, Except.bind]
  | ret => cases hb
  | hlt => cases hb

/-! Each instruction executes as its line of the listing says, once its operands are inside the memory (R72). -/

theorem exec_ldi_listing (a imm : Byte) (s : State) :
    exec (.ldi a imm) s = .next (
      if a.toNat > 7 then s.latch .invalidRegister
      else { s with x := listingSetReg s a imm.toNat, pc := BitVec.ofNat 9 (s.pc.toNat + 3) }) := by
  split_ifs with hbad
  · exact exec_badRegister List.mem_cons_self hbad s
  · have ha : a.toNat < 8 := by omega
    rw [exec_ldi_ok imm ha, listingSetReg_eq s ha, BitVec.ofNat_toNat, BitVec.setWidth_eq]
    rfl

theorem exec_prn_listing (a : Byte) (s : State) :
    exec (.prn a) s = .next (
      if a.toNat > 7 then s.latch .invalidRegister
      else { s with out := s.out ++ [listingReg s a], pc := BitVec.ofNat 9 (s.pc.toNat + 2) }) := by
  split_ifs with hbad
  · exact exec_badRegister List.mem_cons_self hbad s
  · have ha : a.toNat < 8 := by omega
    rw [exec_prn_ok ha, listingReg_eq s ha]
    rfl

theorem exec_add_listing (a b : Byte) (s : State) :
    exec (.add a b) s = .next (
      if a.toNat > 7 ∨ b.toNat > 7 then s.latch .invalidRegister
      else { s with
        x := listingSetReg s a (((listingReg s a).toNat + (listingReg s b).toNat) % 256),
        pc := BitVec.ofNat 9 (s.pc.toNat + 3) }) := by
  split_ifs with hbad
  · obtain ha | hb := hbad
    · exact exec_badRegister List.mem_cons_self ha s
    · exact exec_badRegister (List.mem_pair.2 (.inr rfl)) hb s
  · have ha : a.toNat < 8 := by omega
    have hb : b.toNat < 8 := by omega
    rw [exec_add_ok ha hb, listingSetReg_eq s ha, listingReg_eq s ha, listingReg_eq s hb, ← BitVec.toNat_add,
      BitVec.ofNat_toNat, BitVec.setWidth_eq]
    rfl

theorem exec_mul_listing (a b : Byte) (s : State) :
    exec (.mul a b) s = .next (
      if a.toNat > 7 ∨ b.toNat > 7 then s.latch .invalidRegister
      else { s with
        x := listingSetReg s a (((listingReg s a).toNat * (listingReg s b).toNat) % 256),
        pc := BitVec.ofNat 9 (s.pc.toNat + 3) }) := by
  split_ifs with hbad
  · obtain ha | hb := hbad
    · exact exec_badRegister List.mem_cons_self ha s
    · exact exec_badRegister (List.mem_pair.2 (.inr rfl)) hb s
  · have ha : a.toNat < 8 := by omega
    have hb : b.toNat < 8 := by omega
    rw [exec_mul_ok ha hb, listingSetReg_eq s ha, listingReg_eq s ha, listingReg_eq s hb, ← BitVec.toNat_mul,
      BitVec.ofNat_toNat, BitVec.setWidth_eq]
    rfl

/-- The decremented stack pointer as the listing writes it. -/
theorem ofNat_sp_sub_one {sp : Byte} (h : sp.toNat ≠ 0) : BitVec.ofNat 8 (sp.toNat - 1) = sp - 1#8 := by
  rw [← sp_sub_one_toNat h, BitVec.ofNat_toNat, BitVec.setWidth_eq]

/-- The incremented stack pointer as the listing writes it. -/
theorem ofNat_sp_add_one {sp : Byte} (h : sp.toNat ≠ 255) : BitVec.ofNat 8 (sp.toNat + 1) = sp + 1#8 := by
  rw [← sp_add_one_toNat h, BitVec.ofNat_toNat, BitVec.setWidth_eq]

theorem exec_push_listing (a : Byte) (s : State) :
    exec (.push a) s = .next (
      if a.toNat > 7 then s.latch .invalidRegister
      else if s.sp.toNat = 0 then s.latch .stackOverflow
      else { s with
        mem := Memory.write s.mem (s.sp.toNat - 1) (listingReg s a), sp := BitVec.ofNat 8 (s.sp.toNat - 1),
        pc := BitVec.ofNat 9 (s.pc.toNat + 2) }) := by
  split_ifs with hbad hsp
  · exact exec_badRegister List.mem_cons_self hbad s
  · exact exec_push_overflow (by omega) hsp
  · have ha : a.toNat < 8 := by omega
    rw [exec_push_ok ha hsp, listingReg_eq s ha, ofNat_sp_sub_one hsp]
    rfl

theorem exec_pop_listing (a : Byte) (s : State) :
    exec (.pop a) s = .next (
      if a.toNat > 7 then s.latch .invalidRegister
      else if s.sp.toNat = 255 then s.latch .stackUnderflow
      else { s with
        x := listingSetReg s a (Memory.read s.mem s.sp.toNat).toNat, sp := BitVec.ofNat 8 (s.sp.toNat + 1),
        pc := BitVec.ofNat 9 (s.pc.toNat + 2) }) := by
  split_ifs with hbad hsp
  · exact exec_badRegister List.mem_cons_self hbad s
  · exact exec_pop_underflow (by omega) hsp
  · have ha : a.toNat < 8 := by omega
    rw [exec_pop_ok ha hsp, listingSetReg_eq s ha, ofNat_sp_add_one hsp, BitVec.ofNat_toNat, BitVec.setWidth_eq]
    rfl

theorem exec_call_listing (a : Byte) (s : State) :
    exec (.call a) s = .next (
      if a.toNat > 7 then s.latch .invalidRegister
      else if s.sp.toNat = 0 then s.latch .stackOverflow
      else if s.pc.toNat + 2 > 255 then s.latch .outOfBounds
      else { s with
        mem := Memory.write s.mem (s.sp.toNat - 1) (BitVec.ofNat 8 (s.pc.toNat + 2)),
        sp := BitVec.ofNat 8 (s.sp.toNat - 1), pc := BitVec.ofNat 9 (listingReg s a).toNat }) := by
  split_ifs with hbad hsp hpc
  · exact exec_badRegister List.mem_cons_self hbad s
  · exact exec_call_overflow (by omega) hsp
  · exact exec_call_outOfBounds (by omega) hsp (by omega)
  · have ha : a.toNat < 8 := by omega
    rw [exec_call_ok ha hsp (by omega), listingReg_eq s ha, ofNat_sp_sub_one hsp, BitVec.ofNat_toNat]
    rfl

theorem exec_ret_listing (s : State) :
    exec .ret s = .next (
      if s.sp.toNat = 255 then s.latch .stackUnderflow
      else { s with
        pc := BitVec.ofNat 9 (Memory.read s.mem s.sp.toNat).toNat, sp := BitVec.ofNat 8 (s.sp.toNat + 1) }) := by
  split_ifs with hsp
  · exact exec_ret_underflow hsp
  · rw [exec_ret_ok hsp, ofNat_sp_add_one hsp, BitVec.ofNat_toNat]
    rfl

theorem exec_hlt_listing (s : State) :
    exec .hlt s = .next { s with running := false, pc := BitVec.ofNat 9 (s.pc.toNat + 1) } := rfl

/-! The listing's tests before an instruction's own line: the two fetches and the dispatch. -/

theorem stepListing_opcodeFetch_outOfBounds (m : OpcodeMap) {s : State} (hpc : 256 ≤ s.pc.toNat) :
    stepListing m s = s.latch .outOfBounds :=
  if_pos hpc

theorem stepListing_invalidOpcode {m : OpcodeMap} {s : State} (hpc : s.pc.toNat ≤ 255)
    (hop : Memory.read s.mem s.pc.toNat ∉ m.toList) : stepListing m s = s.latch .invalidOpcode := by
  rw [stepListing, if_neg (not_lt.2 hpc), if_pos hop]
  rfl

theorem stepListing_operandFetch_outOfBounds {m : OpcodeMap} (hm : m.Distinct) {o : Opcode} {s : State}
    (h : atOpcode m o s) (hbeyond : 256 < s.pc.toNat + 1 + operandCount o) :
    stepListing m s = s.latch .outOfBounds := by
  obtain ⟨-, hpc, hop⟩ := h
  have hmem : ¬ m.byte o ∉ m.toList := not_not.2 (m.byte_mem_toList o)
  simp only [stepListing, if_neg (not_lt.2 hpc), hop, if_neg hmem, listingOperandCount_byte hm]
  by_cases hfirst : operandCount o ≥ 1 ∧ s.pc.toNat + 1 > 255
  · rw [if_pos hfirst]
    rfl
  · have hcount := operandCount_le_two o
    have hsecond : operandCount o = 2 ∧ s.pc.toNat + 2 > 255 := by omega
    rw [if_neg hfirst, if_pos hsecond]
    rfl

/-- With its operands inside the memory, an instruction's line of the listing is what it executes. -/
theorem exec_eq_stepListing {m : OpcodeMap} (hm : m.Distinct) {o : Opcode} {s : State}
    (h : atOpcode m o s) (hfits : s.pc.toNat + 1 + operandCount o ≤ 256) :
    exec (o.instr (s.operandByte 1) (s.operandByte 2)) s = .next (stepListing m s) := by
  obtain ⟨-, hpc, hop⟩ := h
  have hmem : ¬ m.byte o ∉ m.toList := not_not.2 (m.byte_mem_toList o)
  have hfirst : ¬ (operandCount o ≥ 1 ∧ s.pc.toNat + 1 > 255) := by omega
  have hsecond : ¬ (operandCount o = 2 ∧ s.pc.toNat + 2 > 255) := by omega
  simp only [stepListing, if_neg (not_lt.2 hpc), hop, if_neg hmem, listingOperandCount_byte hm, if_neg hfirst,
    if_neg hsecond, OpcodeMap.byte_dispatch hm]
  cases o with
  | ldi => exact exec_ldi_listing _ _ s
  | prn => exact exec_prn_listing _ s
  | add => exact exec_add_listing _ _ s
  | mul => exact exec_mul_listing _ _ s
  | push => exact exec_push_listing _ s
  | pop => exact exec_pop_listing _ s
  | call => exact exec_call_listing _ s
  | ret => exact exec_ret_listing s
  | hlt => exact exec_hlt_listing s

/-- Settles O14: step and listing agree in each of the four ways a cycle can go: no opcode cell, an opcode outside the
set, operand cells missing, an instruction to execute (R68 to R72). -/
theorem stepEqualsTheListing : Obligations.StepEqualsTheListing := by
  intro m hm s hs
  by_cases hpc : s.pc.toNat ≤ 255
  · cases hlookup : lookupOpcode m (Memory.read s.mem s.pc.toNat) with
    | none =>
      have hmem := (lookupOpcode_eq_none m _).1 hlookup
      rw [stepListing_invalidOpcode hpc hmem]
      exact opcodeOutsideTheSetRaisesInvalidOpcode m s hs hpc hmem
    | some o =>
      have hat : atOpcode m o s := ⟨hs, hpc, (lookupOpcode_byte hlookup).symm⟩
      by_cases hfits : s.pc.toNat + 1 + operandCount o ≤ 256
      · rw [stepWith_eq_exec hm hat hfits, exec_eq_stepListing hm hat hfits]
      · have hbeyond := not_le.1 hfits
        rw [stepWith_operandFetch_outOfBounds hm hat hbeyond, stepListing_operandFetch_outOfBounds hm hat hbeyond]
  · have hbeyond : 256 ≤ s.pc.toNat := not_le.1 hpc
    rw [stepWith_opcodeFetch_outOfBounds m hs hbeyond, stepListing_opcodeFetch_outOfBounds m hbeyond]

end Sys2Proof.Machine
end

section
/-! LDI and PRN: the completed execution on one register, the bad register index, the operand fetch (41_ldi_prn.md). -/

namespace Sys2Proof.Machine

/-- A byte with the value of a register's number is a checked operand, and names that register (R56). -/
theorem exists_index_eq {a : Byte} {r : Fin 8} (h : a.toNat = r.val) :
    ∃ ha : a.toNat < 8, (⟨a.toNat, ha⟩ : Fin 8) = r :=
  ⟨h ▸ r.isLt, Fin.ext h⟩

/-- Settles O16: a completed LDI is one register write and an advance by 3, and its two operand cells exist up to
pc = 253 (R70, R78). -/
theorem ldiWritesTheImmediate : Obligations.LdiWritesTheImmediate := by
  refine ⟨fun a imm r s har hpc => ?completes,
    fun a imm s hbad => exec_badRegister (i := .ldi a imm) List.mem_cons_self hbad s,
    fun m s hm hat => ⟨fun hbeyond => ?outOfBounds, fun hfits => ?fetched⟩⟩
  case completes =>
    obtain ⟨ha, rfl⟩ := exists_index_eq har
    have hnine : s.pc.toNat + 3 < 512 := by omega
    exact ⟨_, exec_ldi_ok imm ha, RegFile.get_set_same s.x _ imm, fun q hq => RegFile.get_set_other s.x imm hq,
      State.advance_pc_toNat _ 3 hnine, rfl⟩
  case outOfBounds =>
    have hcells : 256 < s.pc.toNat + 1 + 2 := by omega
    exact stepWith_operandFetch_outOfBounds hm hat hcells
  case fetched =>
    have hcells : s.pc.toNat + 1 + 2 ≤ 256 := by omega
    exact stepWith_eq_exec hm hat hcells

/-- Settles O17: a completed PRN is one output and an advance by 2, and its operand cell exists up to pc = 254
(R70, R79, R80). -/
theorem prnAppendsTheRegister : Obligations.PrnAppendsTheRegister := by
  refine ⟨fun a r s har hpc => ?completes,
    fun a s hbad => exec_badRegister (i := .prn a) List.mem_cons_self hbad s,
    fun m s hm hat => ⟨fun hlast => ?outOfBounds, fun hfits => ?fetched⟩⟩
  case completes =>
    obtain ⟨ha, rfl⟩ := exists_index_eq har
    have hnine : s.pc.toNat + 2 < 512 := by omega
    exact ⟨_, exec_prn_ok ha, State.emit_out s _, State.advance_pc_toNat _ 2 hnine, rfl⟩
  case outOfBounds =>
    have hcells : 256 < s.pc.toNat + 1 + 1 := by omega
    exact stepWith_operandFetch_outOfBounds hm hat hcells
  case fetched =>
    have hcells : s.pc.toNat + 1 + 1 ≤ 256 := by omega
    exact stepWith_eq_exec hm hat hcells

end Sys2Proof.Machine
end

section
/-! ADD and MUL: one completed execution on two registers, one bad pair of indices, one fetch of two operands, and the
two instructions that differ in the ALU's result only (42_alu.md). -/

namespace Sys2Proof.Machine

/-- What an execution that ends in one register write and an advance by 3 leaves (R21). The written value is read as a
number, as the modulo-256 results are stated. -/
theorem exists_next_of_setReg_advance {s : State} {o : Host.Outcome State Fault Refusal} {r : Fin 8} {v : Byte} {n : Nat}
    (ho : o = .next ((s.setReg r v).advance 3)) (hv : v.toNat = n) (hpc : s.pc.toNat ≤ 253) :
    ∃ t, o = .next t ∧ (t.x.get r).toNat = n ∧ (∀ q, q ≠ r → t.x.get q = s.x.get q) ∧
      t.pc.toNat = s.pc.toNat + 3 ∧ t = { s with x := t.x, pc := t.pc } := by
  have hvalue : (((s.setReg r v).advance 3).x.get r).toNat = n :=
    (congrArg BitVec.toNat (RegFile.get_set_same s.x r v)).trans hv
  have hnine : s.pc.toNat + 3 < 512 := by omega
  exact ⟨_, ho, hvalue, fun q hq => RegFile.get_set_other s.x v hq, State.advance_pc_toNat _ 3 hnine, rfl⟩

/-- An instruction on two registers faults when either index is bad (R18, R102). -/
theorem exec_badRegisterPair {i : Instr} {a b : Byte} (hi : i.registerOperands = [a, b])
    (hbad : 7 < a.toNat ∨ 7 < b.toNat) (s : State) : exec i s = .next (s.latch .invalidRegister) := by
  obtain ha | hb := hbad
  · have hmem : a ∈ i.registerOperands := hi ▸ List.mem_cons_self
    exact exec_badRegister hmem ha s
  · have hmem : b ∈ i.registerOperands := hi ▸ List.mem_pair.2 (.inr rfl)
    exact exec_badRegister hmem hb s

/-- The two operand cells of a three-byte instruction exist exactly up to pc = 253 (R70). -/
theorem stepWith_twoOperands {m : OpcodeMap} (hm : m.Distinct) {o : Opcode} (ho : operandCount o = 2) {s : State}
    (hat : atOpcode m o s) :
    (254 ≤ s.pc.toNat → stepWith m s = .next (s.latch .outOfBounds)) ∧
    (s.pc.toNat ≤ 253 → stepWith m s = exec (o.instr (s.operandByte 1) (s.operandByte 2)) s) := by
  refine ⟨fun hbeyond => ?outOfBounds, fun hfits => ?fetched⟩
  case outOfBounds =>
    have hcells : 256 < s.pc.toNat + 1 + operandCount o := by omega
    exact stepWith_operandFetch_outOfBounds hm hat hcells
  case fetched =>
    have hcells : s.pc.toNat + 1 + operandCount o ≤ 256 := by omega
    exact stepWith_eq_exec hm hat hcells

/-- Settles O18: a completed ADD is one register write, of the 8-bit sum of the two registers as they were, and an
advance by 3 (R70, R83). -/
theorem addWritesTheSumModulo256 : Obligations.AddWritesTheSumModulo256 := by
  refine ⟨fun a b ra rb s hra hrb hpc => ?completes, fun a b s hbad => exec_badRegisterPair (i := .add a b) rfl hbad s,
    fun m s hm hat => stepWith_twoOperands hm rfl hat⟩
  obtain ⟨ha, rfl⟩ := exists_index_eq hra
  obtain ⟨hb, rfl⟩ := exists_index_eq hrb
  exact exists_next_of_setReg_advance (exec_add_ok ha hb) (BitVec.toNat_add _ _) hpc

/-- Settles O19: a completed MUL is one register write, of the low half of the product of the two registers as they
were, and an advance by 3 (R70, R84). -/
theorem mulWritesTheProductModulo256 : Obligations.MulWritesTheProductModulo256 := by
  refine ⟨fun a b ra rb s hra hrb hpc => ?completes, fun a b s hbad => exec_badRegisterPair (i := .mul a b) rfl hbad s,
    fun m s hm hat => stepWith_twoOperands hm rfl hat⟩
  obtain ⟨ha, rfl⟩ := exists_index_eq hra
  obtain ⟨hb, rfl⟩ := exists_index_eq hrb
  exact exists_next_of_setReg_advance (exec_mul_ok ha hb) (BitVec.toNat_mul _ _) hpc

end Sys2Proof.Machine
end

section
/-! PUSH and POP: the fetch of one operand, what a push leaves in memory, the two completed executions, and the two
steps of the push-pop law (43_stack.md). -/

namespace Sys2Proof.Machine

/-- The operand cell of a two-byte instruction exists exactly up to pc = 254 (R70). -/
theorem stepWith_oneOperand {m : OpcodeMap} (hm : m.Distinct) {o : Opcode} (ho : operandCount o = 1) {s : State}
    (hat : atOpcode m o s) :
    (s.pc.toNat = 255 → stepWith m s = .next (s.latch .outOfBounds)) ∧
    (s.pc.toNat ≤ 254 → stepWith m s = exec (o.instr (s.operandByte 1) (s.operandByte 2)) s) := by
  refine ⟨fun hlast => ?outOfBounds, fun hfits => ?fetched⟩
  case outOfBounds =>
    have hcells : 256 < s.pc.toNat + 1 + operandCount o := by omega
    exact stepWith_operandFetch_outOfBounds hm hat hcells
  case fetched =>
    have hcells : s.pc.toNat + 1 + operandCount o ≤ 256 := by omega
    exact stepWith_eq_exec hm hat hcells

/-- The cell below the top of the stack holds what was pushed (R87, R91). -/
theorem State.read_pushed_same {s : State} (hwf : Memory.wf s.mem = true) (v : Byte) :
    Memory.read (s.pushed v).mem (s.sp.toNat - 1) = v :=
  Memory.read_write_same hwf _ v

/-- A push leaves every other cell alone. -/
theorem State.read_pushed_other (s : State) (v : Byte) {adr : Nat} (h : adr ≠ s.sp.toNat - 1) :
    Memory.read (s.pushed v).mem adr = Memory.read s.mem adr :=
  Memory.read_write_other s.mem v h

/-- Settles O20: a completed PUSH is one pushed byte and an advance by 2, and its operand cell exists up to pc = 254
(R70, R87). -/
theorem pushStoresTheRegister : Obligations.PushStoresTheRegister := by
  refine ⟨fun a r s har hsp hpc hwf => ?completes,
    fun a s hbad => exec_badRegister (i := .push a) List.mem_cons_self hbad s,
    fun a s ha hfull => exec_push_overflow (Nat.lt_succ_of_le ha) hfull,
    fun m s hm hat => stepWith_oneOperand hm rfl hat⟩
  obtain ⟨ha, rfl⟩ := exists_index_eq har
  have hroom : s.sp.toNat ≠ 0 := Nat.one_le_iff_ne_zero.1 hsp
  have hnine : s.pc.toNat + 2 < 512 := by omega
  exact ⟨_, exec_push_ok ha hroom, State.read_pushed_same hwf _, fun _ hadr => State.read_pushed_other s _ hadr,
    sp_sub_one_toNat hroom, State.advance_pc_toNat _ 2 hnine, rfl⟩

/-- Settles O21: a completed POP is a move of the stack pointer, one register write and an advance by 2, and its operand
cell exists up to pc = 254 (R70, R88). -/
theorem popLoadsTheTopOfTheStack : Obligations.PopLoadsTheTopOfTheStack := by
  refine ⟨fun a r s har hsp hpc => ?completes,
    fun a s hbad => exec_badRegister (i := .pop a) List.mem_cons_self hbad s,
    fun a s ha hempty => exec_pop_underflow (Nat.lt_succ_of_le ha) hempty,
    fun m s hm hat => stepWith_oneOperand hm rfl hat⟩
  obtain ⟨ha, rfl⟩ := exists_index_eq har
  have hheld : s.sp.toNat ≠ 255 := by omega
  have hnine : s.pc.toNat + 2 < 512 := by omega
  exact ⟨_, exec_pop_ok ha hheld, RegFile.get_set_same s.x _ _, fun q hq => RegFile.get_set_other s.x _ hq,
    sp_add_one_toNat hheld, State.advance_pc_toNat _ 2 hnine, rfl⟩

/-- The step of a PUSH that completes (R87). -/
theorem stepWith_push_ok {m : OpcodeMap} (hm : m.Distinct) {s : State} {r : Fin 8} (hat : atOpcode m .push s)
    (hr : (s.operandByte 1).toNat = r.val) (hsp : s.sp.toNat ≠ 0) (hpc : s.pc.toNat ≤ 254) :
    stepWith m s = .next ((s.pushed (s.x.get r)).advance 2) := by
  obtain ⟨ha, rfl⟩ := exists_index_eq hr
  exact ((stepWith_oneOperand hm rfl hat).2 hpc).trans (exec_push_ok ha hsp)

/-- The step of a POP that completes (R88). -/
theorem stepWith_pop_ok {m : OpcodeMap} (hm : m.Distinct) {s : State} {r : Fin 8} (hat : atOpcode m .pop s)
    (hr : (s.operandByte 1).toNat = r.val) (hsp : s.sp.toNat ≠ 255) (hpc : s.pc.toNat ≤ 254) :
    stepWith m s =
      .next (((s.setSp (s.sp + 1#8)).setReg r (Memory.read s.mem s.sp.toNat)).advance 2) := by
  obtain ⟨ha, rfl⟩ := exists_index_eq hr
  exact ((stepWith_oneOperand hm rfl hat).2 hpc).trans (exec_pop_ok ha hsp)

/-- A POP that executes right after a push takes the pushed byte and brings the stack pointer back (R89). -/
theorem stepWith_pop_pushed {m : OpcodeMap} (hm : m.Distinct) {s : State} {v : Byte} {n : Nat} {r : Fin 8}
    (hat : atOpcode m .pop ((s.pushed v).advance n)) (hr : (((s.pushed v).advance n).operandByte 1).toNat = r.val)
    (hwf : Memory.wf s.mem = true) (hsp : s.sp.toNat ≠ 0) (hpc : ((s.pushed v).advance n).pc.toNat ≤ 254) :
    stepWith m ((s.pushed v).advance n) =
      .next (((((s.pushed v).advance n).setSp s.sp).setReg r v).advance 2) := by
  have hbelow : (s.sp - 1#8).toNat = s.sp.toNat - 1 := sp_sub_one_toNat hsp
  have hheld : ((s.pushed v).advance n).sp.toNat ≠ 255 := by
    rw [State.advance_sp, State.pushed_sp, hbelow]
    have := s.sp.isLt
    omega
  rw [stepWith_pop_ok hm hat hr hheld hpc, State.advance_sp, State.pushed_sp, BitVec.sub_add_cancel, hbelow,
    State.advance_mem, State.read_pushed_same hwf]

/-- Settles O43: PUSH leaves the two bytes of the POP as they were, so the second step executes that POP on the byte
just pushed (R89). -/
theorem pushThenPopMovesTheRegister : Obligations.PushThenPopMovesTheRegister := by
  intro m s ra rb hm hs hwf hpc hsp hpush hra hpop hrb hopcodeKept hoperandKept
  have hroom : s.sp.toNat ≠ 0 := Nat.one_le_iff_ne_zero.1 hsp
  have hatPush : atOpcode m .push s := ⟨hs, by omega, hpush⟩
  have hpushed := stepWith_push_ok hm hatPush hra hroom (by omega)
  have hnine : s.pc.toNat + 2 < 512 := by omega
  have hnext : ((s.pushed (s.x.get ra)).advance 2).pc.toNat = s.pc.toNat + 2 := State.advance_pc_toNat _ 2 hnine
  have hatPop : atOpcode m .pop ((s.pushed (s.x.get ra)).advance 2) := by
    refine ⟨hs, by omega, ?_⟩
    rw [hnext, State.advance_mem, State.read_pushed_other s _ hopcodeKept.symm]
    exact hpop
  have hindex : (((s.pushed (s.x.get ra)).advance 2).operandByte 1).toNat = rb.val := by
    rw [State.operandByte, hnext, State.advance_mem, State.read_pushed_other s _ hoperandKept.symm]
    exact hrb
  have hpopped := stepWith_pop_pushed hm hatPop hindex hwf hroom (by omega)
  have hnine' : ((s.pushed (s.x.get ra)).advance 2).pc.toNat + 2 < 512 := by omega
  refine ⟨_, _, hpushed, hpopped, RegFile.get_set_same s.x rb _, fun q hq => RegFile.get_set_other s.x _ hq, rfl,
    ?pc, rfl⟩
  calc (((((s.pushed (s.x.get ra)).advance 2).setSp s.sp).setReg rb (s.x.get ra)).advance 2).pc.toNat
      = ((s.pushed (s.x.get ra)).advance 2).pc.toNat + 2 := State.advance_pc_toNat _ 2 hnine'
    _ = s.pc.toNat + 4 := by rw [hnext]

end Sys2Proof.Machine
end

section
/-! CALL and RET: the completed executions on the stack and the pc, the faults in their order, and the fetches of one
operand and of none (44_call_ret.md). -/

namespace Sys2Proof.Machine

/-- Settles O22: a completed CALL is one pushed byte, pc + 2 without wrapping, and a jump to the register's value. Its
operand cell exists up to pc = 254; at 254 no cell is behind it to return to (R70, R91, R95). -/
theorem callPushesTheReturnAddressAndJumps : Obligations.CallPushesTheReturnAddressAndJumps := by
  refine ⟨fun a r s har hsp hpc hwf => ?completes,
    fun a s hbad => exec_badRegister (i := .call a) List.mem_cons_self hbad s,
    fun a s ha hfull => exec_call_overflow (Nat.lt_succ_of_le ha) hfull,
    fun a s ha hsp hpc => ?noReturnAddress,
    fun m s hm hat => stepWith_oneOperand hm rfl hat⟩
  case completes =>
    obtain ⟨ha, rfl⟩ := exists_index_eq har
    have hroom : s.sp.toNat ≠ 0 := Nat.one_le_iff_ne_zero.1 hsp
    have hcell : s.pc.toNat + 2 < 256 := by omega
    have hlink : (Memory.read (s.pushed (BitVec.ofNat 8 (s.pc.toNat + 2))).mem (s.sp.toNat - 1)).toNat =
        s.pc.toNat + 2 := by
      rw [State.read_pushed_same hwf, BitVec.toNat_ofNat, Nat.mod_eq_of_lt hcell]
    exact ⟨_, exec_call_ok ha hroom hcell, hlink, fun _ hadr => State.read_pushed_other s _ hadr,
      sp_sub_one_toNat hroom, State.jump_pc_toNat _ _, rfl⟩
  case noReturnAddress =>
    have hcell : ¬ s.pc.toNat + 2 < 256 := by omega
    exact exec_call_outOfBounds (Nat.lt_succ_of_le ha) (Nat.one_le_iff_ne_zero.1 hsp) hcell

/-- Settles O23: a completed RET is a move of the stack pointer and a jump to the byte it stood on; with no operand cell
to fetch, every RET with a cell of its own executes (R70, R92). -/
theorem retPopsIntoThePc : Obligations.RetPopsIntoThePc := by
  refine ⟨fun s hsp => ?completes, fun s hempty => exec_ret_underflow hempty, fun m s hm hat => ?fetched⟩
  case completes =>
    have hheld : s.sp.toNat ≠ 255 := by omega
    exact ⟨_, exec_ret_ok hheld, State.jump_pc_toNat _ _, sp_add_one_toNat hheld, rfl⟩
  case fetched =>
    obtain ⟨-, hpc, -⟩ := id hat
    have hcells : s.pc.toNat + 1 + 0 ≤ 256 := by omega
    exact stepWith_eq_exec hm hat hcells

end Sys2Proof.Machine
end

section
/-! What an execution leaves, field by field, from its effect, and the fault it raises, a function of the instruction,
the pc and the stack pointer alone (60_exceptions.md section 2). -/

namespace Sys2Proof

/-- Well-formed is every register operand checked (R56). -/
theorem Instr.wellFormed_iff (i : Instr) : i.wellFormed = true ↔ ∀ b ∈ i.registerOperands, b.toNat < 8 := by
  simp only [Instr.wellFormed, List.all_eq_true, registerIndexLegal, Config.nRegs, decide_eq_true_eq]

end Sys2Proof

namespace Sys2Proof.Machine

/-! ### The fields of a completed execution -/

/-- An effect is what the execution answers. -/
theorem Effect.exec_eq {i : Instr} {s t : State} (h : Effect i s t) : exec i s = .next t := by
  cases h with
  | ldi a imm _ ha => exact exec_ldi_ok imm ha
  | prn a _ ha => exact exec_prn_ok ha
  | add a b _ ha hb => exact exec_add_ok ha hb
  | mul a b _ ha hb => exact exec_mul_ok ha hb
  | push a _ ha hsp => exact exec_push_ok ha hsp
  | pop a _ ha hsp => exact exec_pop_ok ha hsp
  | call a _ ha hsp hpc => exact exec_call_ok ha hsp hpc
  | ret _ hsp => exact exec_ret_ok hsp
  | hlt _ => exact exec_hlt_ok s

/-- A completed execution leaves the latch as it was (R103). -/
theorem Effect.fault_eq {i : Instr} {s t : State} (h : Effect i s t) : t.fault = s.fault := by
  cases h <;> rfl

/-- An execution after which no fault stands has completed. -/
theorem effect_of_fault_none {i : Instr} {s t : State} (h : exec i s = .next t) (ht : t.fault = none) :
    Effect i s t := by
  refine (exec_inv h).resolve_right ?_
  rintro ⟨f, rfl⟩
  cases ht

/-- An execution that raised a fault changed the latch alone (R103). -/
theorem latch_of_fault_ne_none {i : Instr} {s t : State} (h : exec i s = .next t) (hs : s.fault = none)
    (ht : t.fault ≠ none) : ∃ f, t = s.latch f :=
  (exec_inv h).resolve_left fun heffect => ht (heffect.fault_eq.trans hs)

/-- A push keeps the canonical form: its cell is below 256. -/
theorem State.wf_pushed {s : State} (hwf : Memory.wf s.mem = true) (v : Byte) : Memory.wf (s.pushed v).mem = true := by
  have hcell : s.sp.toNat - 1 < 256 := by have := s.sp.isLt; omega
  exact Memory.wf_write hwf hcell v

/-- A completed execution keeps the canonical form. -/
theorem Effect.wf_mem {i : Instr} {s t : State} (h : Effect i s t) (hwf : Memory.wf s.mem = true) :
    Memory.wf t.mem = true := by
  cases h with
  | push => exact State.wf_pushed hwf _
  | call => exact State.wf_pushed hwf _
  | _ => exact hwf

/-- A completed execution writes no cell but the one below the top of the stack, in any memory (R32, R40). -/
theorem Effect.read_mem_other {i : Instr} {s t : State} (h : Effect i s t) {adr : Nat} (hadr : adr ≠ s.sp.toNat - 1) :
    Memory.read t.mem adr = Memory.read s.mem adr := by
  cases h with
  | push => exact State.read_pushed_other s _ hadr
  | call => exact State.read_pushed_other s _ hadr
  | _ => rfl

/-- An execution writes no cell but the one below the top of the stack, whether it completes or faults. -/
theorem exec_read_mem_other {i : Instr} {s t : State} (h : exec i s = .next t) {adr : Nat}
    (hadr : adr ≠ s.sp.toNat - 1) : Memory.read t.mem adr = Memory.read s.mem adr := by
  obtain heffect | ⟨f, rfl⟩ := exec_inv h
  · exact heffect.read_mem_other hadr
  · rfl

/-- An advance that ends at or below the end of memory does not wrap (R21, R22). -/
theorem State.advance_pc_of_fits {s : State} {n : Nat} (h : s.pc.toNat + n ≤ 256) :
    (s.advance n).pc.toNat = s.pc.toNat + n :=
  State.advance_pc_toNat s n (by omega)

/-- A jump leaves a legal pc: its target is a byte (R37). -/
theorem State.jump_pc_le (s : State) (v : Byte) : (s.jump v).pc.toNat ≤ 256 := by
  rw [State.jump_pc_toNat]
  exact v.isLt.le

/-- A completed execution of an instruction that fits below the end of memory leaves a legal pc (R21, R22). -/
theorem Effect.pc_le {i : Instr} {s t : State} (h : Effect i s t) (hfits : s.pc.toNat + instrLength i ≤ 256) :
    t.pc.toNat ≤ 256 := by
  cases h with
  | call => exact State.jump_pc_le _ _
  | ret => exact State.jump_pc_le _ _
  | _ => exact (State.advance_pc_of_fits hfits).trans_le hfits

/-! ### The fault of an execution -/

/-- Settles O25: the index check is the first thing an execution does, and it takes the whole byte (R56). -/
theorem illegalRegisterIndexRaisesInvalidRegister : Obligations.IllegalRegisterIndexRaisesInvalidRegister := by
  intro i s hill
  obtain ⟨b, hb, hbad⟩ : ∃ b ∈ i.registerOperands, ¬ b.toNat < 8 := by
    by_contra hall
    push Not at hall
    rw [(Instr.wellFormed_iff i).2 hall] at hill
    cases hill
  exact exec_badRegister hb (by omega) s

/-- The fault an execution raises once its register operands are checked: the stack check, then CALL's return address
(R26, R95, R102). -/
def stackFault (i : Instr) (s : State) : Option FaultCode :=
  match i with
  | .push _ => if s.sp.toNat = 0 then some .stackOverflow else none
  | .pop _ | .ret => if s.sp.toNat = 255 then some .stackUnderflow else none
  | .call _ => if s.sp.toNat = 0 then some .stackOverflow
    else if s.pc.toNat + 2 < 256 then none else some .outOfBounds
  | .ldi _ _ | .prn _ | .add _ _ | .mul _ _ | .hlt => none

/-- The fault an execution raises, in the order of R102. -/
def execFault (i : Instr) (s : State) : Option FaultCode :=
  if i.wellFormed then stackFault i s else some .invalidRegister

/-- An execution with a fault condition latches that fault and changes nothing else. -/
theorem exec_of_execFault_eq_some {i : Instr} {s : State} {f : FaultCode} (h : execFault i s = some f) :
    exec i s = .next (s.latch f) := by
  unfold execFault at h
  split_ifs at h with hlegal
  · rw [Instr.wellFormed_iff] at hlegal
    cases i <;> simp only [stackFault, reduceCtorEq] at h
    case push a =>
      split_ifs at h with hsp
      cases h
      exact exec_push_overflow (hlegal a List.mem_cons_self) hsp
    case pop a =>
      split_ifs at h with hsp
      cases h
      exact exec_pop_underflow (hlegal a List.mem_cons_self) hsp
    case call a =>
      have ha := hlegal a List.mem_cons_self
      split_ifs at h with hsp hpc <;> cases h
      · exact exec_call_overflow ha hsp
      · exact exec_call_outOfBounds ha hsp hpc
    case ret =>
      split_ifs at h with hsp
      cases h
      exact exec_ret_underflow hsp
  · cases h
    exact illegalRegisterIndexRaisesInvalidRegister i s (Bool.eq_false_iff.2 hlegal)

/-- An execution without a fault condition completes. -/
theorem effect_of_execFault_eq_none {i : Instr} {s : State} (h : execFault i s = none) : ∃ t, Effect i s t := by
  unfold execFault at h
  split_ifs at h with hlegal
  rw [Instr.wellFormed_iff] at hlegal
  cases i with
  | ldi a imm => exact ⟨_, .ldi a imm s (hlegal a List.mem_cons_self)⟩
  | prn a => exact ⟨_, .prn a s (hlegal a List.mem_cons_self)⟩
  | add a b => exact ⟨_, .add a b s (hlegal a List.mem_cons_self) (hlegal b (List.mem_pair.2 (.inr rfl)))⟩
  | mul a b => exact ⟨_, .mul a b s (hlegal a List.mem_cons_self) (hlegal b (List.mem_pair.2 (.inr rfl)))⟩
  | push a =>
    have hsp : s.sp.toNat ≠ 0 := by simpa [stackFault] using h
    exact ⟨_, .push a s (hlegal a List.mem_cons_self) hsp⟩
  | pop a =>
    have hsp : s.sp.toNat ≠ 255 := by simpa [stackFault] using h
    exact ⟨_, .pop a s (hlegal a List.mem_cons_self) hsp⟩
  | call a =>
    simp only [stackFault] at h
    split_ifs at h with hsp hpc
    exact ⟨_, .call a s (hlegal a List.mem_cons_self) hsp hpc⟩
  | ret =>
    have hsp : s.sp.toNat ≠ 255 := by simpa [stackFault] using h
    exact ⟨_, .ret s hsp⟩
  | hlt => exact ⟨_, .hlt s⟩

/-- The latch after an execution with none before it is the execution's fault. -/
theorem exec_fault {i : Instr} {s t : State} (hs : s.fault = none) (h : exec i s = .next t) :
    t.fault = execFault i s := by
  cases hf : execFault i s with
  | some f =>
    rw [exec_of_execFault_eq_some hf] at h
    cases h
    rfl
  | none =>
    obtain ⟨u, hu⟩ := effect_of_execFault_eq_none hf
    rw [hu.exec_eq] at h
    cases h
    exact hu.fault_eq.trans hs

/-- A change of the state that leaves pc and sp, carries over latches, and carries over effects, carries over executions. -/
theorem exec_map {i : Instr} {s t : State} (change : State → State) (hpc : (change s).pc = s.pc)
    (hsp : (change s).sp = s.sp) (hlatch : ∀ f, (change s).latch f = change (s.latch f))
    (heffect : ∀ u, Effect i s u → Effect i (change s) (change u)) (h : exec i s = .next t) :
    exec i (change s) = .next (change t) := by
  have hfault : execFault i (change s) = execFault i s := by
    simp only [execFault, stackFault, hpc, hsp]
  cases hf : execFault i s with
  | some f =>
    rw [exec_of_execFault_eq_some hf] at h
    cases h
    rw [exec_of_execFault_eq_some (hfault.trans hf), hlatch]
  | none =>
    obtain ⟨u, hu⟩ := effect_of_execFault_eq_none hf
    rw [hu.exec_eq] at h
    cases h
    exact (heffect _ hu).exec_eq

end Sys2Proof.Machine
end

section
/-! The fault of a step against the table of R101: the table's row of an opcode is the operand fetch, then the
execution's own fault. -/

namespace Sys2Proof.Machine

/-- The row of an opcode whose byte stands at pc: first its operand fetch, then its execution (R101, R102). -/
theorem faultTable_of_atOpcode {m : OpcodeMap} (hm : m.Distinct) {o : Opcode} {s : State} (h : atOpcode m o s) :
    faultTable m s =
      if s.pc.toNat + 1 + operandCount o ≤ 256 then execFault (o.instr (s.operandByte 1) (s.operandByte 2)) s
      else some .outOfBounds := by
  obtain ⟨-, hpc, hop⟩ := h
  have hcell : ¬ 256 ≤ s.pc.toNat := by omega
  have hempty : s.sp = 255#8 ↔ s.sp.toNat = 255 := BitVec.toNat_inj.symm
  have hfull : s.sp = 0#8 ↔ s.sp.toNat = 0 := BitVec.toNat_inj.symm
  have htwo : 254 ≤ s.pc.toNat ↔ ¬ s.pc.toNat + 1 + 2 ≤ 256 := by omega
  have hone : s.pc.toNat = 255 ↔ ¬ s.pc.toNat + 1 + 1 ≤ 256 := by omega
  have hnone : s.pc.toNat < 256 := by omega
  have hillegal (b : Byte) : 7 < b.toNat ↔ ¬ b.toNat < 8 := by omega
  simp only [faultTable, if_neg hcell, hop, ite_or, OpcodeMap.byte_dispatch hm, hempty, hfull, htwo, hone, hillegal,
    ite_not, execFault, Instr.wellFormed_iff]
  cases o with
  | ldi => simp [Opcode.instr, operandCount, Instr.registerOperands, stackFault]
  | prn => simp [Opcode.instr, operandCount, Instr.registerOperands, stackFault]
  | add => simp [Opcode.instr, operandCount, Instr.registerOperands, stackFault, ite_and]
  | mul => simp [Opcode.instr, operandCount, Instr.registerOperands, stackFault, ite_and]
  | push => simp [Opcode.instr, operandCount, Instr.registerOperands, stackFault]
  | pop => simp [Opcode.instr, operandCount, Instr.registerOperands, stackFault]
  | call =>
    by_cases hfits : s.pc.toNat + 1 < 256
    · have hlink : s.pc.toNat = 254 ↔ ¬ s.pc.toNat + 2 < 256 := by omega
      simp only [hlink, ite_not]
      simp [Opcode.instr, operandCount, Instr.registerOperands, stackFault]
    · simp [operandCount, hfits]
  | ret => simp [Opcode.instr, operandCount, Instr.registerOperands, stackFault, hnone]
  | hlt => simp [Opcode.instr, operandCount, Instr.registerOperands, stackFault, hnone, OpcodeMap.byte]

/-- The table's first row is the opcode fetch (R68). -/
theorem faultTable_beyond (m : OpcodeMap) {s : State} (hpc : 256 ≤ s.pc.toNat) : faultTable m s = some .outOfBounds :=
  if_pos hpc

/-- A byte outside the opcode set is in no row of an opcode (R69). -/
theorem faultTable_invalidOpcode {m : OpcodeMap} {s : State} (hpc : s.pc.toNat ≤ 255)
    (hop : Memory.read s.mem s.pc.toNat ∉ m.toList) : faultTable m s = some .invalidOpcode := by
  have hcell : ¬ 256 ≤ s.pc.toNat := by omega
  simp only [OpcodeMap.toList, List.mem_cons, List.not_mem_nil, or_false, not_or] at hop
  simp only [faultTable, hcell, hop, or_self, if_false]

/-- Settles O15: the four ways of a cycle are the table's: no opcode cell, an opcode outside the set, operand cells
missing, and an execution with its own fault or none (R68 to R71, R101, R102). -/
theorem faultOfAStepIsTheFaultTable : Obligations.FaultOfAStepIsTheFaultTable := by
  intro m hm s hs
  by_cases hpc : 256 ≤ s.pc.toNat
  · exact ⟨_, stepWith_opcodeFetch_outOfBounds m hs hpc, (faultTable_beyond m hpc).symm⟩
  have hcell : s.pc.toNat ≤ 255 := by omega
  cases hlookup : lookupOpcode m (Memory.read s.mem s.pc.toNat) with
  | none =>
    have hmem := (lookupOpcode_eq_none m _).1 hlookup
    exact ⟨_, opcodeOutsideTheSetRaisesInvalidOpcode m s hs hcell hmem, (faultTable_invalidOpcode hcell hmem).symm⟩
  | some o =>
    have hat : atOpcode m o s := ⟨hs, hcell, (lookupOpcode_byte hlookup).symm⟩
    rw [faultTable_of_atOpcode hm hat]
    split_ifs with hfits
    · rw [stepWith_eq_exec hm hat hfits]
      obtain ⟨t, ht⟩ := exec_next (o.instr (s.operandByte 1) (s.operandByte 2)) s
      exact ⟨t, ht, exec_fault ((State.status_eq_running s).1 hs).2 ht⟩
    · exact ⟨_, stepWith_operandFetch_outOfBounds hm hat (not_le.1 hfits), rfl⟩

end Sys2Proof.Machine
end

section
/-! When a step exists, what every step keeps, and what every run then keeps (10_state.md section 4, 40_engine_cycle.md
section 2, 60_exceptions.md section 2). -/

namespace Sys2Proof.Machine

/-! ### The enabled step -/

theorem exists_stepWith_next_iff (m : OpcodeMap) (s : State) : (∃ t, stepWith m s = .next t) ↔ s.status = .running := by
  refine ⟨fun ⟨t, ht⟩ => (stepWith_next ht).1, fun hs => ?_⟩
  rw [stepWith_running hs]
  exact cycleWith_next m s

theorem stepWith_halted (m : OpcodeMap) {s : State} (h : s.status = .halted) : stepWith m s = .fault .engineHalted := by
  simp only [stepWith, h]

theorem stepWith_faulted (m : OpcodeMap) {s : State} {f : FaultCode} (h : s.status = .faulted f) :
    stepWith m s = .fault (.engineFaulted f) := by
  simp only [stepWith, h]

/-- Settles O13: the step asks the status alone, and the flag and the latch give the status (R30, R67). -/
theorem stepIsEnabledExactlyWhenRunning : Obligations.StepIsEnabledExactlyWhenRunning := by
  intro m s
  refine ⟨?enabled, fun hrun hfault => ?halted, fun f hfault => ?faulted⟩
  case enabled => rw [exists_stepWith_next_iff, State.status_eq_running]
  case halted => exact stepWith_halted m ((State.status_eq_halted s).2 ⟨hrun, hfault⟩)
  case faulted => exact stepWith_faulted m ((State.status_eq_faulted s f).2 hfault)

/-! ### What every step keeps -/

/-- Settles O31: a step that completes leaves the empty latch it began with, so one that raises a fault is a latch
(R103). -/
theorem faultingStepChangesOnlyTheLatch : Obligations.FaultingStepChangesOnlyTheLatch := by
  intro m s t h hfault
  obtain ⟨-, hnone, ⟨i, -, -, heffect⟩ | ⟨f, rfl, -, -⟩⟩ := stepWith_inv h
  · exact absurd (heffect.fault_eq.trans hnone) hfault
  · rfl

/-- Settles O26: the ALU block looks at the select before anything else, and of the faults a step can latch none is its
answer (R82, R106). -/
theorem unsupportedOperationIsOnlyTheAluBlocks : Obligations.UnsupportedOperationIsOnlyTheAluBlocks := by
  refine ⟨fun k a b s => rfl, fun m s t h hfault => ?_⟩
  obtain ⟨-, hnone, ⟨i, -, -, heffect⟩ | ⟨f, rfl, hother, -⟩⟩ := stepWith_inv h
  · rw [heffect.fault_eq, hnone] at hfault
    cases hfault
  · exact hother (Option.some.inj hfault)

/-- With no fault, the invariant says that memory is canonical and pc legal. -/
theorem State.Inv.of_fault_none {s : State} (hmem : Memory.wf s.mem = true) (hpc : s.pc.toNat ≤ 256)
    (hfault : s.fault = none) : s.Inv where
  memCanonical := hmem
  pcLegal := hpc
  faultWhileRunning h := absurd hfault h
  aluNeverAsked h := nomatch hfault.symm.trans h
  loadNeverLatched h := nomatch hfault.symm.trans h

/-- A Running engine that latches one of the faults of a step keeps the invariant. -/
theorem State.Inv.latch {s : State} (hs : s.Inv) (hrun : s.running = true) {f : FaultCode}
    (halu : f ≠ .unsupportedOperation) (hload : f ≠ .programTooLarge) : (s.latch f).Inv where
  memCanonical := hs.memCanonical
  pcLegal := hs.pcLegal
  faultWhileRunning _ := hrun
  aluNeverAsked h := halu (Option.some.inj h)
  loadNeverLatched h := hload (Option.some.inj h)

/-- Settles O28: a completed execution keeps memory canonical and the pc legal and latches nothing; any other step
latches a fault of a step while the flag is set (R22, R30, R106, R107). -/
theorem everyStepKeepsTheInvariant : Obligations.EveryStepKeepsTheInvariant := by
  intro m s t hs h
  obtain ⟨hrun, hnone, ⟨i, hfits, -, heffect⟩ | ⟨f, rfl, halu, hload⟩⟩ := stepWith_inv h
  · exact .of_fault_none (heffect.wf_mem hs.memCanonical) (heffect.pc_le hfits) (heffect.fault_eq.trans hnone)
  · exact hs.latch hrun halu hload

theorem State.inv_resetWith (regs : RegFile) : (State.resetWith regs).Inv :=
  .of_fault_none Memory.wf_reset (Nat.zero_le 256) (State.resetWith_fault regs)

/-- Settles O29: reset leaves the empty memory, pc 0 and no fault, whatever the registers hold. -/
theorem resetMeetsTheInvariant : Obligations.ResetMeetsTheInvariant :=
  ⟨State.inv_resetWith, State.inv_resetWith _⟩

/-! ### The host's load -/

theorem load_ok {program : List Byte} (h : program.length ≤ 256) (s : State) :
    load program s = .ok { s with mem := Memory.store s.mem 0 program } :=
  if_pos h

theorem load_error {program : List Byte} (h : 256 < program.length) (s : State) :
    load program s = .error .programTooLarge :=
  if_neg (not_le.2 h)

/-- A load that succeeds had at most 256 bytes, and stored them from address 0 (R49). -/
theorem load_eq_ok {program : List Byte} {s t : State} (h : load program s = .ok t) :
    program.length ≤ 256 ∧ t = { s with mem := Memory.store s.mem 0 program } := by
  by_cases hlength : program.length ≤ 256
  · rw [load_ok hlength] at h
    cases h
    exact ⟨hlength, rfl⟩
  · rw [load_error (not_le.1 hlength)] at h
    cases h

/-- Settles O47: the stored bytes end below 256, so each is read back and every cell behind them is as before
(R49, R50). -/
theorem loadWritesExactlyTheProgram : Obligations.LoadWritesExactlyTheProgram := by
  intro program s hlength hwf
  have hfits : 0 + program.length ≤ 256 := by omega
  refine ⟨_, load_ok hlength s, fun i hi => ?inside, fun a ha => ?outside, Memory.wf_store hwf 0 program hfits, rfl⟩
  case inside =>
    have hread := Memory.read_store_same hwf 0 program hfits i hi
    rwa [Nat.zero_add] at hread
  case outside => exact Memory.read_store_other s.mem 0 program (.inr (by omega))

/-- A load that fails tells the host its fault and leaves the machine as it was (R51). -/
theorem hostLoad_of_load_error {program : List Byte} {h : Session} {f : FaultCode} (hphase : h.phase ≠ .runBegan)
    (hload : load program h.machine = .error f) :
    hostLoad program h = .next ({ machine := h.machine, phase := .loadFailed }, some f) := by
  cases hp : h.phase with
  | runBegan => exact absurd hp hphase
  | ready => simp only [hostLoad, hp, hload]
  | loadFailed => simp only [hostLoad, hp, hload]

/-- Settles O48: the length is checked before any byte is stored (R51, R107). -/
theorem loadBeyondMemoryFailsAndWritesNothing : Obligations.LoadBeyondMemoryFailsAndWritesNothing :=
  ⟨fun _ s hlong => load_error hlong s, fun _ h hlong hphase => hostLoad_of_load_error hphase (load_error hlong h.machine)⟩

/-! ### The run -/

/-- A stopped engine's run leaves it as it is (R73, R74). -/
theorem runWith_stopped {m : OpcodeMap} {s : State} (h : s.status ≠ .running) (fuel : Nat) : runWith m fuel s = s := by
  cases fuel with
  | zero => rfl
  | succ fuel =>
    cases hstep : stepWith m s with
    | next t => exact absurd (stepWith_next hstep).1 h
    | fault r => rw [runWith, hstep]
    | refused r => rw [runWith, hstep]

/-- What holds before a run and is kept by every step holds at every point of the run. -/
theorem runWith_keeps {m : OpcodeMap} {P : State → Prop} (hstep : ∀ s t, P s → stepWith m s = .next t → P t)
    (fuel : Nat) {s : State} (hs : P s) : P (runWith m fuel s) := by
  induction fuel generalizing s with
  | zero => exact hs
  | succ fuel ih =>
    by_cases hrunning : s.status = .running
    · obtain ⟨t, ht⟩ := (exists_stepWith_next_iff m s).2 hrunning
      rw [runWith_next ht]
      exact ih (hstep s t hs ht)
    · rwa [runWith_stopped hrunning]

/-- Settles O30: a load leaves a canonical memory at pc 0 with no fault, and the run keeps the invariant step by step
(R118). -/
theorem everyRunOfEveryProgramKeepsTheInvariant : Obligations.EveryRunOfEveryProgramKeepsTheInvariant := by
  intro m regs program s hload fuel
  obtain ⟨hlength, rfl⟩ := load_eq_ok hload
  have hmem : Memory.wf (Memory.store [] 0 program) = true := Memory.wf_store Memory.wf_reset 0 program (by omega)
  exact runWith_keeps (everyStepKeepsTheInvariant m) fuel (.of_fault_none hmem (Nat.zero_le 256) rfl)

/-- A run taken further in two parts is the run taken further at once (R73). -/
theorem runWith_add (m : OpcodeMap) (j k : Nat) (s : State) : runWith m (j + k) s = runWith m k (runWith m j s) := by
  induction j generalizing s with
  | zero =>
    rw [Nat.zero_add]
    rfl
  | succ j ih =>
    by_cases hrunning : s.status = .running
    · obtain ⟨t, ht⟩ := (exists_stepWith_next_iff m s).2 hrunning
      rw [Nat.succ_add, runWith_next ht, runWith_next ht, ih]
    · simp only [runWith_stopped hrunning]

/-- Settles O50: the run's own two equations, its additivity, and that a stopped engine has no step (R73, R74). -/
theorem stoppedRunStaysAsItIs : Obligations.StoppedRunStaysAsItIs := by
  refine ⟨fun m s => rfl, fun m k s t ht => runWith_next ht k, fun m j k s => ⟨runWith_add m j k s, fun hstopped => ?_⟩⟩
  rw [runWith_add, runWith_stopped hstopped]

/-- Settles O52: a run that has latched a fault has stopped, so it still holds that fault however much further it is
taken (R29, R105). -/
theorem latchedFaultIsNeverCleared : Obligations.LatchedFaultIsNeverCleared := by
  intro m j k s hsafe
  by_contra hfault
  have hstopped : (runWith m j s).status ≠ .running := fun hrunning =>
    hfault ((State.status_eq_running _).1 hrunning).2
  rw [safeRun, runWith_add, runWith_stopped hstopped] at hsafe
  exact hfault hsafe

theorem hostRun_ready (fuel : Nat) {h : Session} (hphase : h.phase = .ready) :
    hostRun fuel h = .next ({ machine := runWith defaultOpcodes fuel h.machine, phase := .runBegan },
      (runWith defaultOpcodes fuel h.machine).status) := by
  simp only [hostRun, hphase]

/-- Settles O49: each host operation asks the phase first (R121). -/
theorem hostOperationsOutOfOrderAreRefused : Obligations.HostOperationsOutOfOrderAreRefused := by
  refine ⟨fun program h hphase => ?loadAfterRun, fun fuel h hphase => ?secondRun, fun fuel h hphase => ?runAfterFailure,
    fun fuel h hphase => ⟨_, _, hostRun_ready fuel hphase, rfl, rfl, rfl⟩⟩
  case loadAfterRun => simp only [hostLoad, hphase]
  case secondRun => simp only [hostRun, hphase]
  case runAfterFailure => simp only [hostRun, hphase]

/-- Settles O51: continuing runs the machine that the first part left, and the two runs add up (R73, R74). -/
theorem runTakenFurtherIsTheLongerRun : Obligations.RunTakenFurtherIsTheLongerRun := by
  intro j k h hphase
  refine ⟨_, _, _, _, hostRun_ready j hphase, rfl, ?_⟩
  rw [hostRun_ready (j + k) hphase, runWith_add]

end Sys2Proof.Machine
end

section
/-! How each instruction changes each field: the tables of 10_state.md and their frames. -/

namespace Sys2Proof.Machine

/-- What every effect of an instruction and every latch leave, its execution leaves. -/
theorem exec_keeps {α : Type} (field : State → α) {i : Instr} {s t : State} (h : exec i s = .next t)
    (hlatch : ∀ f, field (s.latch f) = field s) (heffect : Effect i s t → field t = field s) : field t = field s := by
  obtain hcompleted | ⟨f, rfl⟩ := exec_inv h
  · exact heffect hcompleted
  · exact hlatch f

/-! ### The program counter -/

/-- Settles O32: a fault is a latch, and a completed execution ends in an advance by the instruction's length or in a
jump (R21). -/
theorem pcChangesAsTheTableSays : Obligations.PcChangesAsTheTableSays := by
  intro i s t hs hfits h
  refine ⟨fun hfault => ?_, fun hnone => ?_⟩
  · obtain ⟨f, rfl⟩ := latch_of_fault_ne_none h hs hfault
    rfl
  · cases effect_of_fault_none h hnone with
    | ldi | prn | add | mul | push | pop | hlt => exact State.advance_pc_of_fits hfits
    | call a _ ha => exact ⟨⟨a.toNat, ha⟩, rfl, State.jump_pc_toNat _ _⟩
    | ret => exact State.jump_pc_toNat _ _

/-! ### The stack pointer -/

/-- Settles O33: a fault is a latch; PUSH and CALL complete only above 0 and POP and RET only below 255, each by one
move; the others have no move (R25, R26). -/
theorem spChangesAsTheTableSays : Obligations.SpChangesAsTheTableSays := by
  intro i s t hs h
  refine ⟨fun hfault => ?faulting, ?table⟩
  case faulting =>
    obtain ⟨f, rfl⟩ := latch_of_fault_ne_none h hs hfault
    rfl
  case table =>
    cases i with
    | push a =>
      refine ⟨fun hnone => ?_, fun ha hfull => ?_⟩
      · cases effect_of_fault_none h hnone with
        | push _ _ _ hsp => exact ⟨Nat.one_le_iff_ne_zero.2 hsp, sp_sub_one_toNat hsp⟩
      · cases (exec_push_overflow (Nat.lt_succ_of_le ha) hfull).symm.trans h
        rfl
    | call a =>
      refine ⟨fun hnone => ?_, fun ha hfull => ?_⟩
      · cases effect_of_fault_none h hnone with
        | call _ _ _ hsp => exact ⟨Nat.one_le_iff_ne_zero.2 hsp, sp_sub_one_toNat hsp⟩
      · cases (exec_call_overflow (Nat.lt_succ_of_le ha) hfull).symm.trans h
        rfl
    | pop a =>
      refine ⟨fun hnone => ?_, fun ha hempty => ?_⟩
      · cases effect_of_fault_none h hnone with
        | pop _ _ _ hsp => exact ⟨by have := s.sp.isLt; omega, sp_add_one_toNat hsp⟩
      · cases (exec_pop_underflow (Nat.lt_succ_of_le ha) hempty).symm.trans h
        rfl
    | ret =>
      refine ⟨fun hnone => ?_, fun hempty => ?_⟩
      · cases effect_of_fault_none h hnone with
        | ret _ hsp => exact ⟨by have := s.sp.isLt; omega, sp_add_one_toNat hsp⟩
      · cases (exec_ret_underflow hempty).symm.trans h
        rfl
    | ldi | prn | add | mul | hlt => exact exec_keeps State.sp h (fun _ => rfl) (by rintro ⟨⟩; rfl)

/-! ### The registers -/

/-- A register other than the one an operand names is not written through that operand. -/
theorem RegFile.get_set_unnamed (rf : RegFile) {a : Byte} (ha : a.toNat < 8) {q : Fin 8} (hq : a.toNat ≠ q.val) (v : Byte) :
    (rf.set ⟨a.toNat, ha⟩ v).get q = rf.get q :=
  RegFile.get_set_other rf v fun h => hq (congrArg Fin.val h).symm

/-- Settles O34: the one register write of a completed LDI, ADD, MUL or POP is to its first operand's register; the
other effects and the latches have none (R16). -/
theorem onlyTheNamedDestinationRegisterIsWritten : Obligations.OnlyTheNamedDestinationRegisterIsWritten := by
  intro i s t h
  cases i with
  | ldi | add | mul | pop =>
    intro q hq
    refine exec_keeps (fun u => u.x.get q) h (fun _ => rfl) ?_
    rintro ⟨⟩
    exact RegFile.get_set_unnamed _ _ hq _
  | prn | push | call | ret | hlt => exact exec_keeps State.x h (fun _ => rfl) (by rintro ⟨⟩; rfl)

/-- A register file is its eight registers (R15). -/
theorem RegFile.ext_get {x y : RegFile} (h : ∀ q, x.get q = y.get q) : x = y := by
  cases x
  cases y
  exact congr (congr (congr (congr (congr (congr (congr (congrArg RegFile.mk (h 0)) (h 1)) (h 2)) (h 3)) (h 4)) (h 5))
    (h 6)) (h 7)

/-- Writes of two different registers commute. -/
theorem RegFile.set_comm (x : RegFile) {i j : Fin 8} (h : i ≠ j) (v w : Byte) :
    (x.set i v).set j w = (x.set j w).set i v := by
  refine RegFile.ext_get fun q => ?_
  simp only [RegFile.get_set]
  split_ifs with hj hi
  · exact absurd (hi.symm.trans hj) h
  all_goals rfl

theorem State.setReg_setReg_comm (s : State) {i j : Fin 8} (h : i ≠ j) (v w : Byte) :
    (s.setReg i v).setReg j w = (s.setReg j w).setReg i v := by
  simp only [State.setReg, RegFile.set_comm s.x h]

/-- A completed execution carries a register that its instruction does not name along (R16). -/
theorem Effect.setReg_unnamed {i : Instr} {s t : State} (h : Effect i s t) {q : Fin 8} (v : Byte)
    (hq : ∀ b ∈ i.registerOperands, b.toNat ≠ q.val) : Effect i (s.setReg q v) (t.setReg q v) := by
  have hread {b : Byte} (hmem : b ∈ i.registerOperands) (hb : b.toNat < 8) :
      (s.setReg q v).x.get ⟨b.toNat, hb⟩ = s.x.get ⟨b.toNat, hb⟩ :=
    RegFile.get_set_other s.x v fun he => hq b hmem (congrArg Fin.val he)
  have hwrite {b : Byte} (hmem : b ∈ i.registerOperands) (hb : b.toNat < 8) (u : State) (w : Byte) :
      (u.setReg q v).setReg ⟨b.toNat, hb⟩ w = (u.setReg ⟨b.toNat, hb⟩ w).setReg q v :=
    State.setReg_setReg_comm u (fun he => hq b hmem (congrArg Fin.val he).symm) v w
  cases h with
  | ldi a imm _ ha =>
    have heffect := Effect.ldi a imm (s.setReg q v) ha
    rwa [hwrite List.mem_cons_self] at heffect
  | prn a _ ha =>
    have heffect := Effect.prn a (s.setReg q v) ha
    rwa [hread List.mem_cons_self] at heffect
  | add a b _ ha hb =>
    have heffect := Effect.add a b (s.setReg q v) ha hb
    rwa [hread List.mem_cons_self, hread (List.mem_pair.2 (.inr rfl)), hwrite List.mem_cons_self] at heffect
  | mul a b _ ha hb =>
    have heffect := Effect.mul a b (s.setReg q v) ha hb
    rwa [hread List.mem_cons_self, hread (List.mem_pair.2 (.inr rfl)), hwrite List.mem_cons_self] at heffect
  | push a _ ha hsp =>
    have heffect := Effect.push a (s.setReg q v) ha hsp
    rwa [hread List.mem_cons_self] at heffect
  | pop a _ ha hsp =>
    have heffect : Effect (.pop a) (s.setReg q v) ((((s.setSp (s.sp + 1#8)).setReg q v).setReg ⟨a.toNat, ha⟩
        (Memory.read s.mem s.sp.toNat)).advance 2) := .pop a (s.setReg q v) ha hsp
    rwa [hwrite List.mem_cons_self] at heffect
  | call a _ ha hsp hpc =>
    have heffect := Effect.call a (s.setReg q v) ha hsp hpc
    rwa [hread List.mem_cons_self] at heffect
  | ret _ hsp => exact .ret (s.setReg q v) hsp
  | hlt _ => exact .hlt (s.setReg q v)

/-- Settles O35: a fault is decided by the instruction, the pc and the stack pointer, and an effect carries the
register along (R16). -/
theorem unnamedRegistersAreNeitherReadNorWritten : Obligations.UnnamedRegistersAreNeitherReadNorWritten := by
  intro i s t q v hq h
  exact exec_map (State.setReg · q v) rfl rfl (fun _ => rfl) (fun u hu => hu.setReg_unnamed v hq) h

/-! ### Memory -/

/-- The stack pointer a push computes names the cell it writes (R25). -/
theorem toNat_of_pushedSp {s : State} {p : Byte} (h : pushedSp s = .ok p) : p.toNat = s.sp.toNat - 1 := by
  by_cases hsp : s.sp.toNat = 0
  · rw [pushedSp_error hsp] at h
    cases h
  · rw [pushedSp_ok hsp] at h
    cases h
    exact sp_sub_one_toNat hsp

/-- Settles O36: the one cell written is the one below the top of the stack, by PUSH and CALL; the other effects and
the latches leave memory as it was (R32, R40). -/
theorem onlyPushAndCallWriteOneCellOfMemory : Obligations.OnlyPushAndCallWriteOneCellOfMemory := by
  intro i s t h
  cases i with
  | push | call =>
    intro p hp adr hadr
    exact exec_read_mem_other h (toNat_of_pushedSp hp ▸ hadr)
  | ldi | prn | add | mul | pop | ret | hlt =>
    intro adr
    exact exec_keeps (fun u => Memory.read u.mem adr) h (fun _ => rfl) (by rintro ⟨⟩; rfl)

/-- Settles O37: the cell below the top of the stack is at most 254; after reset it is 254 (R25, R42). -/
theorem cellTwoFiftyFiveIsWrittenByNoStep : Obligations.CellTwoFiftyFiveIsWrittenByNoStep := by
  refine ⟨fun m s t h => ?anyStep, fun a r regs hr => ?firstPush⟩
  case anyStep =>
    have htop : 255 ≠ s.sp.toNat - 1 := by have := s.sp.isLt; omega
    obtain ⟨-, -, ⟨i, -, -, heffect⟩ | ⟨f, rfl, -, -⟩⟩ := stepWith_inv h
    · exact heffect.read_mem_other htop
    · rfl
  case firstPush =>
    obtain ⟨ha, rfl⟩ := exists_index_eq hr
    have hroom : (State.resetWith regs).sp.toNat ≠ 0 := by rw [State.resetWith_sp]; decide
    exact ⟨_, exec_push_ok ha hroom, sp_sub_one_toNat hroom, State.read_pushed_same Memory.wf_reset _⟩

/-! ### The output and the running flag -/

/-- Settles O38: of the nine effects PRN's is the one that emits, and a latch emits nothing (R31, R79). -/
theorem outputGrowsOnlyByPrn : Obligations.OutputGrowsOnlyByPrn := by
  intro i s t hs h
  obtain heffect | ⟨f, rfl⟩ := exec_inv h
  · cases heffect with
    | prn a _ ha => exact .inr ⟨a, ⟨a.toNat, ha⟩, rfl, rfl, hs, rfl⟩
    | ldi | add | mul | push | pop | call | ret | hlt => exact .inl ⟨rfl, fun _ hi => nomatch hi⟩
  · exact .inl ⟨rfl, fun _ _ hnone => nomatch hnone⟩

/-- The state with more output before its own. -/
def State.prependOut (s : State) (earlier : List Byte) : State := { s with out := earlier ++ s.out }

/-- A completed execution carries earlier output along (R31). -/
theorem Effect.prependOut {i : Instr} {s t : State} (h : Effect i s t) (earlier : List Byte) :
    Effect i (s.prependOut earlier) (t.prependOut earlier) := by
  cases h with
  | prn a _ ha =>
    have heffect : Effect (.prn a) (s.prependOut earlier)
        (((s.prependOut earlier).emit (s.x.get ⟨a.toNat, ha⟩)).advance 2) := .prn a (s.prependOut earlier) ha
    have happend : (s.prependOut earlier).emit (s.x.get ⟨a.toNat, ha⟩) =
        (s.emit (s.x.get ⟨a.toNat, ha⟩)).prependOut earlier := by
      simp only [State.emit, State.prependOut, List.append_assoc]
    rwa [happend] at heffect
  | ldi a imm _ ha => exact .ldi a imm _ ha
  | add a b _ ha hb => exact .add a b _ ha hb
  | mul a b _ ha hb => exact .mul a b _ ha hb
  | push a _ ha hsp => exact .push a _ ha hsp
  | pop a _ ha hsp => exact .pop a _ ha hsp
  | call a _ ha hsp hpc => exact .call a _ ha hsp hpc
  | ret _ hsp => exact .ret _ hsp
  | hlt _ => exact .hlt _

/-- Settles O39: fetch and decode do not see the output, a fault is decided without it, and an effect carries it along
(R31). -/
theorem outputIsNeverReadBack : Obligations.OutputIsNeverReadBack := by
  intro m s t earlier h
  obtain ⟨hs, hcycle⟩ := stepWith_next h
  have hrunning : (s.prependOut earlier).status = .running := hs
  change stepWith m (s.prependOut earlier) = .next (t.prependOut earlier)
  cases hdecode : decodeWith m (fetchBytes s) with
  | ok r =>
    rw [stepWith_of_decode_ok hs hdecode] at h
    rw [stepWith_of_decode_ok hrunning hdecode]
    exact exec_map (State.prependOut · earlier) rfl rfl (fun _ => rfl) (fun u hu => hu.prependOut earlier) h
  | error e =>
    rw [stepWith_of_decode_error hs hdecode] at h
    cases h
    exact stepWith_of_decode_error hrunning hdecode

/-- Settles O40: HLT always completes and clears the flag; the other effects and the latches leave it (R28). -/
theorem runningFlagIsClearedExactlyByHlt : Obligations.RunningFlagIsClearedExactlyByHlt := by
  intro i s t h
  cases i with
  | hlt =>
    cases (exec_hlt_ok s).symm.trans h
    rfl
  | ldi | prn | add | mul | push | pop | call | ret =>
    exact exec_keeps State.running h (fun _ => rfl) (by rintro ⟨⟩; rfl)

end Sys2Proof.Machine
end

section
/-! The decoder read backwards, and the default opcode bytes (30_encoding.md). -/

namespace Sys2Proof

/-- What a successful decode says: the first byte is the instruction's opcode byte, and its operands stand behind it. -/
theorem decodeWith_cons_ok {m : OpcodeMap} {op : Byte} {bytes rest : List Byte} {i : Instr}
    (h : decodeWith m (op :: bytes) = .ok (i, rest)) :
    lookupOpcode m op = some i.opcode ∧ i.operands ++ rest = bytes := by
  cases hlookup : lookupOpcode m op with
  | none =>
    rw [decodeWith_invalid m op bytes hlookup] at h
    cases h
  | some o =>
    rw [decodeWith_cons m op bytes hlookup] at h
    obtain ⟨rfl, hoperands⟩ := decodeOperands_ok h
    exact ⟨rfl, hoperands⟩

/-- Settles O3: the lookup finds the opcode of the byte it is asked for, and the operands are the bytes behind it
(R61, R62). -/
theorem encodeOfDecodeIsTheBytes : Obligations.EncodeOfDecodeIsTheBytes := by
  intro m bytes rest i h
  cases bytes with
  | nil => cases h
  | cons op bytes =>
    obtain ⟨hlookup, hoperands⟩ := decodeWith_cons_ok h
    rw [encodeWith, List.cons_append, hoperands, lookupOpcode_byte hlookup]

/-- Settles O4: both decodes look the same byte up, and the opcode gives the number of operand bytes (R53, R57). -/
theorem opcodeByteAloneSelectsInstructionAndLength : Obligations.OpcodeByteAloneSelectsInstructionAndLength := by
  intro m op bytes bytes' rest rest' i i' h h'
  obtain ⟨hlookup, rfl⟩ := decodeWith_cons_ok h
  obtain ⟨hlookup', -⟩ := decodeWith_cons_ok h'
  have hopcode : i.opcode = i'.opcode := Option.some.inj (hlookup.symm.trans hlookup')
  refine ⟨hopcode, by rw [instrLength, instrLength, hopcode], ?_⟩
  rw [List.length_append, Instr.length_operands, instrLength]
  omega

/-- Of a legal opcode only the operand bytes can be missing (R69, R70). -/
theorem decodeOperands_error {o : Opcode} {bytes : List Byte} {e : DecodeError} (h : decodeOperands o bytes = .error e) :
    e = .missingOperand o := by
  rcases bytes with _ | ⟨a, _ | ⟨b, rest⟩⟩
  case nil => cases o <;> cases h <;> rfl
  case cons.nil => cases o <;> cases h <;> rfl
  case cons.cons => cases o <;> cases h

/-- A decode fails on the opcode byte exactly when that byte is outside the opcode set (R60, R69). -/
theorem decodeWith_eq_invalidOpcode_iff (m : OpcodeMap) (op : Byte) (rest : List Byte) :
    decodeWith m (op :: rest) = .error (.invalidOpcode op) ↔ op ∉ m.toList := by
  rw [← lookupOpcode_eq_none]
  refine ⟨fun h => ?_, decodeWith_invalid m op rest⟩
  cases hlookup : lookupOpcode m op with
  | none => rfl
  | some o =>
    rw [decodeWith_cons m op rest hlookup] at h
    cases decodeOperands_error h

/-- The default opcode bytes in rising order (R58). -/
theorem mem_defaultOpcodes_toList (op : Byte) : op ∈ defaultOpcodes.toList ↔
    op ∈ [0x01#8, 0x11#8, 0x45#8, 0x46#8, 0x47#8, 0x50#8, 0x82#8, 0xA0#8, 0xA2#8] :=
  List.Perm.mem_iff (by decide)

/-- Settles O5: the nine default bytes are the opcode set, and the three others named are not in it (R60, R61). -/
theorem exactlyNineOpcodeBytesAreLegal : Obligations.ExactlyNineOpcodeBytesAreLegal := by
  have hlegal (op : Byte) (rest : List Byte) : decode (op :: rest) = .error (.invalidOpcode op) ↔
      op ∉ [0x01#8, 0x11#8, 0x45#8, 0x46#8, 0x47#8, 0x50#8, 0x82#8, 0xA0#8, 0xA2#8] := by
    rw [decode, decodeWith_eq_invalidOpcode_iff, mem_defaultOpcodes_toList]
  exact ⟨hlegal, (hlegal _ _).2 (by decide), (hlegal _ _).2 (by decide), (hlegal _ _).2 (by decide)⟩

/-- Settles O1: each word is the default encoding of its instruction, with nothing behind it (R54, R58). -/
theorem defaultWordsDecodeToTheirInstructions : Obligations.DefaultWordsDecodeToTheirInstructions := by
  have hdecode (i : Instr) : decode (encode i ++ []) = .ok (i, []) :=
    decodeOfEncodeIsTheInstruction defaultOpcodes defaultOpcodes_distinct i []
  exact ⟨hdecode (.ldi 3#8 200#8), hdecode (.prn 7#8), hdecode (.add 1#8 2#8), hdecode (.mul 4#8 5#8),
    hdecode (.push 6#8), hdecode (.pop 0#8), hdecode (.call 1#8), hdecode .ret, hdecode .hlt⟩

/-- Bits 7:6 of a default opcode byte are its operand count, bit 5 its ALU mark (R58, R59). -/
theorem defaultOpcodes_bits (o : Opcode) :
    ((defaultOpcodes.byte o).extractLsb 7 6).toNat = operandCount o ∧
      (defaultOpcodes.byte o).getLsbD 5 = isAluOpcode o := by
  cases o <;> decide

/-- Settles O6: bits 7:5 hold both marks, so bytes that agree above bit 5 agree in both (R55, R59). -/
theorem defaultOpcodeBitsGiveCountAndAluMark : Obligations.DefaultOpcodeBitsGiveCountAndAluMark := by
  refine ⟨defaultOpcodes_bits, defaultOpcodes_distinct, 5, by decide, by decide, fun o o' h => ?_⟩
  have hcount (b : Byte) : (b.extractLsb 7 6).toNat = ((b >>> 5).extractLsb 2 1).toNat := by
    simp only [BitVec.extractLsb_toNat, BitVec.toNat_ushiftRight, ← Nat.shiftRight_add]
  have hmark (b : Byte) : b.getLsbD 5 = (b >>> 5).getLsbD 0 := by simp
  obtain ⟨hc, ha⟩ := defaultOpcodes_bits o
  obtain ⟨hc', ha'⟩ := defaultOpcodes_bits o'
  rw [← hc, ← hc', ← ha, ← ha', hcount, hcount, hmark, hmark, h]
  exact ⟨rfl, rfl⟩

end Sys2Proof
end

section
/-! The step on what stands at pc: no cell, decoded bytes, an encoding in memory, a word the host placed, HLT
(40_engine_cycle.md section 1, 45_hlt.md). -/

namespace Sys2Proof.Machine

/-- Settles O7: the cycle executes what the decoder answers (R67 to R71). -/
theorem stepRunsTheDecodedInstruction : Obligations.StepRunsTheDecodedInstruction :=
  ⟨fun _ _ _ _ hs h => stepWith_of_decode_ok hs h, fun _ _ _ hs h => stepWith_of_decode_ok hs h⟩

/-- Settles O10: with no cell at pc no byte is fetched (R68). -/
theorem fetchBeyondMemoryRaisesOutOfBounds : Obligations.FetchBeyondMemoryRaisesOutOfBounds :=
  fun m _ hs hpc => stepWith_opcodeFetch_outOfBounds m hs hpc

/-- Settles O8: an encoding that ends below 256 is the beginning of the fetch window, and decodes whatever stands after
it (R53, R63). -/
theorem stepRunsTheEncodedInstructionInMemory : Obligations.StepRunsTheEncodedInstructionInMemory := by
  intro m hm s i hs hfits hbytes
  have hwindow : instrLength i ≤ min Config.maxLength (Config.memCells - s.pc.toNat) := by
    have := (instrLength_le i).2
    simp only [Config.maxLength, Config.memCells]
    omega
  obtain ⟨rest, hrest⟩ := Memory.readBytes_prefix s.mem s.pc.toNat hwindow
  have hdecode : decodeWith m (fetchBytes s) = .ok (i, rest) := by
    rw [fetchBytes, hrest, hbytes]
    exact decodeOfEncodeIsTheInstruction m hm i rest
  exact stepWith_of_decode_ok hs hdecode

/-- A block stored is the block read back. -/
theorem Memory.readBytes_store {m : Memory} (hm : Memory.wf m = true) (base : Nat) (bytes : List Byte)
    (h : base + bytes.length ≤ 256) : Memory.readBytes (Memory.store m base bytes) base bytes.length = bytes := by
  induction bytes generalizing m base with
  | nil => rfl
  | cons b rest ih =>
    rw [List.length_cons] at h
    have hfirst : Memory.read (Memory.store m base (b :: rest)) base = b :=
      Memory.read_store_same hm base (b :: rest) h 0 (Nat.succ_pos _)
    rw [List.length_cons, Memory.readBytes, hfirst, Memory.store,
      ih (Memory.wf_write hm (by omega) b) (base + 1) (by omega)]

/-- Where three cells stand from pc on, the placed word is the whole table word. -/
theorem State.withFetchWord_mem {s : State} (hpc : s.pc.toNat ≤ 253) (nbits w : Nat) :
    (s.withFetchWord nbits w).mem = Memory.store s.mem s.pc.toNat (tableBytes nbits w) := by
  have hall : (tableBytes nbits w).length ≤ Config.memCells - s.pc.toNat := by
    simp only [tableBytes, List.length_cons, List.length_nil, Config.memCells]
    omega
  simp only [State.withFetchWord, State.placeAtPc, List.take_of_length_le hall]

/-- A table word that decodes is decoded from its bytes. -/
theorem decode_tableBytes {nbits w : Nat} {i : Instr} (h : decodeTableWord nbits w = some i) :
    ∃ rest, decode (tableBytes nbits w) = .ok (i, rest) := by
  unfold decodeTableWord at h
  split at h
  · cases h
    exact ⟨_, ‹_›⟩
  · cases h

/-- Settles O9: the three placed cells are the fetch window, and nothing else has changed (log 18). -/
theorem placedTableWordRunsNext : Obligations.PlacedTableWordRunsNext := by
  intro s nbits w i hs hwf hpc h
  have hfits : s.pc.toNat + (tableBytes nbits w).length ≤ 256 := by
    simp only [tableBytes, List.length_cons, List.length_nil]
    omega
  have hwindow : fetchBytes (s.withFetchWord nbits w) = tableBytes nbits w := by
    have hthree : min Config.maxLength (Config.memCells - s.pc.toNat) = (tableBytes nbits w).length := by
      simp only [tableBytes, List.length_cons, List.length_nil, Config.maxLength, Config.memCells]
      omega
    have hread := Memory.readBytes_store hwf s.pc.toNat (tableBytes nbits w) hfits
    rwa [← State.withFetchWord_mem hpc, ← hthree] at hread
  obtain ⟨rest, hrest⟩ := decode_tableBytes h
  refine ⟨stepWith_of_decode_ok hs (hwindow ▸ hrest), rfl, fun a ha => ?_⟩
  rw [State.withFetchWord_mem hpc]
  exact Memory.read_store_other s.mem _ _ ha

/-- Settles O24: HLT executes without a condition wherever it stands, and leaves the flag cleared with the latch as it
was, which is Halted (R75, R96). -/
theorem hltClearsTheRunningFlag : Obligations.HltClearsTheRunningFlag := by
  refine ⟨fun s hpc => ?completes, fun m s hm hat => ?fetched, fun m s t hs h => ?halted⟩
  case completes =>
    have hcells : s.clearRunning.pc.toNat + 1 ≤ 256 := Nat.succ_le_succ hpc
    exact ⟨_, exec_hlt_ok s, rfl, State.advance_pc_of_fits hcells, rfl⟩
  case fetched =>
    obtain ⟨-, hpc, -⟩ := id hat
    have hcells : s.pc.toNat + 1 + 0 ≤ 256 := by omega
    exact stepWith_eq_exec hm hat hcells
  case halted =>
    cases (exec_hlt_ok s).symm.trans h
    have hhalted (mem : Memory) : ({ s.clearRunning.advance 1 with mem := mem } : State).status = .halted :=
      (State.status_eq_halted _).2 ⟨rfl, hs⟩
    exact ⟨hhalted s.mem, fun mem => stepWith_halted m (hhalted mem)⟩

end Sys2Proof.Machine
end

section
/-! The ALU's two readings, the memory's contract, what PUSH and CALL leave for a later RET or fetch, and the fault
numbers. -/

namespace Sys2Proof.Machine

/-- Settles O27: 8-bit addition and multiplication are those of the naturals and of the integers, wrapped (R85). -/
theorem aluResultsAgreeForUnsignedAndSigned : Obligations.AluResultsAgreeForUnsignedAndSigned :=
  fun x y => ⟨⟨x + y, rfl, BitVec.toNat_add x y, BitVec.toInt_add x y⟩,
    ⟨x * y, rfl, BitVec.toNat_mul x y, BitVec.toInt_mul x y⟩⟩

/-- Settles O41: the bound is checked both ways, and below it the contract is that of the cells (R36, R44). -/
theorem memoryContractHolds : Obligations.MemoryContractHolds := by
  refine ⟨fun a v s ha => ⟨memRead_error (not_lt.2 ha), memWrite_error v (not_lt.2 ha)⟩, fun a v s ha hwf => ?_⟩
  refine ⟨_, memWrite_ok v ha, ?same, fun b hb => ?other, Memory.wf_write hwf ha v, rfl⟩
  case same => rw [memRead_ok ha, Memory.read_write_same hwf]
  case other => simp only [memRead, Memory.read_write_other s.mem v hb]

/-- Canonical memories with the first entry at different addresses do not read alike: at the lower address one holds its
entry and the other is unlisted. -/
theorem Memory.not_read_eq_of_lt {low low' k k' : Nat} {v v' : Byte} {m n : Memory} (hkk : k < k')
    (hm : Memory.wfFrom low ((k, v) :: m) = true) (hn : Memory.wfFrom low' ((k', v') :: n) = true) :
    Memory.read ((k, v) :: m) k ≠ Memory.read ((k', v') :: n) k := by
  have hunlisted : Memory.read ((k', v') :: n) k = 0#8 :=
    Memory.read_below (low := k') ((Memory.wfFrom_cons _ _ _ _).2 ⟨le_rfl, ((Memory.wfFrom_cons _ _ _ _).1 hn).2⟩) hkk
  obtain ⟨hread, hv⟩ := Memory.wfFrom_head_read hm
  rw [hread, hunlisted]
  exact hv

/-- Canonical memories that read alike everywhere are equal, from any lower bounds: entry by entry. -/
theorem Memory.eq_of_read_eq {low low' : Nat} {m n : Memory} (hm : Memory.wfFrom low m = true)
    (hn : Memory.wfFrom low' n = true) (h : ∀ a, Memory.read m a = Memory.read n a) : m = n := by
  induction m generalizing low low' n with
  | nil =>
    cases n with
    | nil => rfl
    | cons c n =>
      obtain ⟨hread, hv⟩ := Memory.wfFrom_head_read hn
      exact absurd (hread.symm.trans (h c.1).symm) hv
  | cons c m ih =>
    cases n with
    | nil =>
      obtain ⟨hread, hv⟩ := Memory.wfFrom_head_read hm
      exact absurd (hread.symm.trans (h c.1)) hv
    | cons d n =>
      obtain ⟨k, v⟩ := c
      obtain ⟨k', v'⟩ := d
      obtain hlt | rfl | hgt := lt_trichotomy k k'
      · exact absurd (h k) (Memory.not_read_eq_of_lt hlt hm hn)
      · obtain ⟨-, -, -, hm'⟩ := (Memory.wfFrom_cons _ _ _ _).1 hm
        obtain ⟨-, -, -, hn'⟩ := (Memory.wfFrom_cons _ _ _ _).1 hn
        obtain rfl : v = v' := by simpa [Memory.read_cons] using h k
        have htail (a : Nat) : Memory.read m a = Memory.read n a := by
          by_cases hka : k = a
          · subst hka
            rw [Memory.read_below hm' (Nat.lt_succ_self k), Memory.read_below hn' (Nat.lt_succ_self k)]
          · simpa [Memory.read_cons, hka] using h a
        rw [ih hm' hn' htail]
      · exact absurd (h k').symm (Memory.not_read_eq_of_lt hgt hn hm)

/-- Settles O42: above the address space both read 0, so they read alike everywhere. -/
theorem canonicalMemoriesThatReadAlikeAreEqual : Obligations.CanonicalMemoriesThatReadAlikeAreEqual := by
  intro m n hm hn h
  refine Memory.eq_of_read_eq hm hn fun a => ?_
  by_cases ha : a < 256
  · exact h a ha
  · rw [Memory.read_outside hm (not_lt.1 ha), Memory.read_outside hn (not_lt.1 ha)]

/-- The cell at the stack pointer a push leaves holds what was pushed. -/
theorem State.read_pushed_top {s : State} (hwf : Memory.wf s.mem = true) (hsp : s.sp.toNat ≠ 0) (v : Byte) :
    Memory.read (s.pushed v).mem (s.pushed v).sp.toNat = v := by
  rw [State.pushed_sp, sp_sub_one_toNat hsp, State.read_pushed_same hwf]

/-- Settles O44: the CALL left its address + 2, below 256, in the cell that the RET reads, one below where the stack
pointer stood (R93). -/
theorem retAfterCallReturnsBehindTheCall : Obligations.RetAfterCallReturnsBehindTheCall := by
  intro s t u a hs hwf hpc h hnone husp hcell
  cases effect_of_fault_none h hnone with
  | call _ _ ha hsp hlink =>
    have husp' : u.sp = s.sp - 1#8 := husp
    have hheld : u.sp.toNat ≠ 255 := by
      rw [husp', sp_sub_one_toNat hsp]
      have := s.sp.isLt
      omega
    have hreturn : Memory.read u.mem u.sp.toNat = BitVec.ofNat 8 (s.pc.toNat + 2) := by
      rw [husp]
      exact hcell.trans (State.read_pushed_top hwf hsp _)
    refine ⟨_, exec_ret_ok hheld, ?pc, ?sp⟩
    case pc => rw [State.jump_pc_toNat, hreturn, BitVec.toNat_ofNat, Nat.mod_eq_of_lt hlink]
    case sp => rw [State.jump_sp, State.setSp_sp, husp', BitVec.sub_add_cancel]

/-- A byte pushed is what is read at the new stack pointer and what is fetched there first (R47, R123). -/
theorem fetched_of_pushed {s t u : State} {v : Byte} (hwf : Memory.wf s.mem = true) (hsp : s.sp.toNat ≠ 0)
    (htmem : t.mem = (s.pushed v).mem) (htsp : t.sp = (s.pushed v).sp) (humem : u.mem = t.mem)
    (hupc : u.pc.toNat = t.sp.toNat) : memRead t.sp.toNat t = .ok v ∧ (fetchBytes u).head? = some v := by
  have htop : Memory.read t.mem t.sp.toNat = v := by rw [htmem, htsp, State.read_pushed_top hwf hsp]
  rw [memRead_ok t.sp.isLt, head?_fetchBytes (hupc ▸ t.sp.isLt), humem, hupc, htop]
  exact ⟨rfl, rfl⟩

/-- Settles O45: both push one byte, PUSH its register and CALL its address + 2 (R87, R91). -/
theorem pushedByteIsFetchedAsAnOpcode : Obligations.PushedByteIsFetchedAsAnOpcode := by
  rintro i s t u ⟨a, rfl | rfl⟩ hs hwf h hnone humem hupc
  · cases effect_of_fault_none h hnone with
    | push _ _ ha hsp =>
      obtain ⟨hread, hfetch⟩ := fetched_of_pushed hwf hsp rfl rfl humem hupc
      refine ⟨_, hread, hfetch, fun b hi => (nomatch hi), fun b r hi hr => ?_⟩
      cases hi
      obtain ⟨-, rfl⟩ := exists_index_eq hr
      rfl
  · cases effect_of_fault_none h hnone with
    | call _ _ ha hsp hlink =>
      obtain ⟨hread, hfetch⟩ := fetched_of_pushed hwf hsp rfl rfl humem hupc
      exact ⟨_, hread, hfetch, fun _ _ => rfl, fun b r hi => (nomatch hi)⟩

/-- The latch value of a fault number (R99). -/
def faultOfNumber : Nat → Option FaultCode
  | 1 => some .outOfBounds
  | 2 => some .invalidRegister
  | 3 => some .invalidOpcode
  | 4 => some .unsupportedOperation
  | 5 => some .stackOverflow
  | 6 => some .stackUnderflow
  | 7 => some .programTooLarge
  | _ => none

theorem faultOfNumber_faultNumber : Function.LeftInverse faultOfNumber faultNumber
  | none => rfl
  | some f => by cases f <;> rfl

/-- Settles O53: a number names its latch value, so no two have the same (R99). -/
theorem faultNumbersAreDistinct : Obligations.FaultNumbersAreDistinct :=
  ⟨rfl, rfl, rfl, rfl, rfl, rfl, rfl, rfl, fun _ _ h => faultOfNumber_faultNumber.injective h⟩

end Sys2Proof.Machine
end
